-- ==== Sys2Proof/Word.lean ====
section
/-!
DEFINITION. The value types of the block (R9): `u8` and `u16`, both unsigned.
-/
namespace Sys2Proof

/-- `u8`: an unsigned 8-bit value (R9); also one byte of a byte sequence (R10). -/
abbrev Byte := BitVec 8

/-- `u16`: an unsigned 16-bit value (R9). -/
abbrev Word := BitVec 16

end Sys2Proof
end

