-- ==== Sys2Proof/Syntax.lean ====
section
/-!
DEFINITION. The syntax of the block: its ports (R22), its ten commands (R71) and the pseudo-instructions (R75).
-/
namespace Sys2Proof

/-- R22: the operand ports as sampled when a command is issued. They are inputs, not state. -/
structure Ports where
  /-- CMD, the command code. -/
  cmd : Byte
  /-- UNIT, the unit address. -/
  unit : Byte
  /-- REG, a register address. -/
  reg : Word
  /-- ARG, a count, a value, or an 8-bit operand in ARG[7:0]. -/
  arg : Word
  /-- IN, the input bytes; index 0 is the first on the wire (R41). -/
  inp : List Byte
  deriving DecidableEq, Repr

/-- R71: the ten mnemonics of the command table. -/
inductive Opcode where
  | encodeRead | encodeWrite | decodeRead | decodeWrite
  | lrcCompute | lrcCheck
  | hexEnc8 | hexEnc16 | hexDec8 | hexDec16
  deriving DecidableEq, Repr

/-- A command with the operands it reads, in the order of the "reads ports" column of R71. A port a command does not
read is no operand of it (R22). -/
inductive Instr where
  /-- ENCODE_READ unit, start, count (R140). -/
  | encodeRead (unit : Byte) (reg arg : Word)
  /-- ENCODE_WRITE unit, reg, value (R141). -/
  | encodeWrite (unit : Byte) (reg arg : Word)
  /-- DECODE_READ unit, in (R170). -/
  | decodeRead (unit : Byte) (inp : List Byte)
  /-- DECODE_WRITE unit, reg, value, in (R180). -/
  | decodeWrite (unit : Byte) (reg arg : Word) (inp : List Byte)
  /-- LRC_COMPUTE in (R121). -/
  | lrcCompute (inp : List Byte)
  /-- LRC_CHECK in, cc (R122): cc is ARG[7:0]. -/
  | lrcCheck (inp : List Byte) (cc : Byte)
  /-- HEX_ENC8 b (R106): b is ARG[7:0]. -/
  | hexEnc8 (b : Byte)
  /-- HEX_ENC16 w (R107). -/
  | hexEnc16 (w : Word)
  /-- HEX_DEC8 in (R108). -/
  | hexDec8 (inp : List Byte)
  /-- HEX_DEC16 in (R109). -/
  | hexDec16 (inp : List Byte)
  deriving DecidableEq, Repr

/-- The mnemonic of a command. -/
def Instr.opcode : Instr → Opcode
  | .encodeRead _ _ _ => .encodeRead
  | .encodeWrite _ _ _ => .encodeWrite
  | .decodeRead _ _ => .decodeRead
  | .decodeWrite _ _ _ _ => .decodeWrite
  | .lrcCompute _ => .lrcCompute
  | .lrcCheck _ _ => .lrcCheck
  | .hexEnc8 _ => .hexEnc8
  | .hexEnc16 _ => .hexEnc16
  | .hexDec8 _ => .hexDec8
  | .hexDec16 _ => .hexDec16

/-- R75: the pseudo-instructions. -/
inductive Pseudo where
  /-- POLL_REQ u. -/
  | pollReq (unit : Byte)
  /-- POLL_DECODE u, in. -/
  | pollDecode (unit : Byte) (inp : List Byte)
  /-- SETPOINT_REQ u, raw. -/
  | setpointReq (unit : Byte) (raw : Word)
  /-- SETPOINT_ACK u, raw, in. -/
  | setpointAck (unit : Byte) (raw : Word) (inp : List Byte)
  deriving DecidableEq, Repr

end Sys2Proof
end

