-- ==== Sys2Proof/Config.lean ====
section
/-!
DEFINITION. What is fixed for one block: its name, the OPEN input capacity and the host's constants (R3, R7, R8).
-/
namespace Sys2Proof

/-- R3: the identity string of the block. -/
def Config.identity : String := "OmegaCN-FrameCodec/v7"

/-- By how much IN_CAP exceeds its least value 19. OPEN in the spec (R7, R8, D8): no body, so that a claim holds
for every capacity the spec allows (DESIGN CHOICE, safe: notes/assumptions/5.md). -/
opaque Config.inCapExtra : Nat

/-- R8: IN_CAP, the largest number of bytes the host can present in IN, "a natural number ≥ 19". -/
def Config.inCap : Nat := Config.inCapExtra + 19

/-- R7, R145: OUT_CAP, the length of the longest output. -/
def Config.outCap : Nat := 17

/-- R7: PV_REG, the measurement register the host polls (host usage; no command uses it). -/
def Config.pvReg : Word := 0x4700

/-- R7: SP_REG, the setpoint register the host writes (host usage; no command uses it). -/
def Config.spReg : Word := 0x4701

/-- R7: POLL_COUNT, the register count of the host's poll (host usage; no command uses it). -/
def Config.pollCount : Word := 2

end Sys2Proof
end

