-- ==== Sys2Proof/WellFormed.lean ====
section
/-!
DEFINITION. What the host can present (R8, R30): an input of at most IN_CAP bytes. Every other operand is bounded by
its type (R22).
-/
namespace Sys2Proof

/-- R8: the input is no longer than IN_CAP. -/
def fitsIn (inp : List Byte) : Bool := decide (inp.length ≤ Config.inCap)

/-- R30: the host may issue this bundle: "with |IN| ≤ IN_CAP". -/
def Ports.wf (p : Ports) : Bool := fitsIn p.inp

/-- R8: the command's IN operand, where it has one, can be presented. -/
def Instr.wf : Instr → Bool
  | .encodeRead _ _ _ => true
  | .encodeWrite _ _ _ => true
  | .decodeRead _ inp => fitsIn inp
  | .decodeWrite _ _ _ inp => fitsIn inp
  | .lrcCompute inp => fitsIn inp
  | .lrcCheck inp _ => fitsIn inp
  | .hexEnc8 _ => true
  | .hexEnc16 _ => true
  | .hexDec8 inp => fitsIn inp
  | .hexDec16 inp => fitsIn inp

end Sys2Proof
end

