-- ==== Sys2Proof/Decode.lean ====
section
/-!
DEFINITION. The command encoding (R71, R72): from the ports the host drives to a command, and back (R74).
-/
namespace Sys2Proof

/-- R71: the assigned command codes. CMD[7:4] is the group, CMD[3:0] the command within it. -/
def opcodeTable : List (Byte × Opcode) :=
  [ (0x01, .encodeRead), (0x02, .encodeWrite), (0x03, .decodeRead), (0x04, .decodeWrite),
    (0x10, .lrcCompute), (0x11, .lrcCheck),
    (0x20, .hexEnc8), (0x21, .hexEnc16), (0x22, .hexDec8), (0x23, .hexDec16) ]

/-- R71, R72: the command a code selects; `none` for an illegal code. -/
def opcodeOf (cmd : Byte) : Option Opcode := opcodeTable.lookup cmd

/-- R71: the code of a command. -/
def opcodeCode : Opcode → Byte
  | .encodeRead => 0x01
  | .encodeWrite => 0x02
  | .decodeRead => 0x03
  | .decodeWrite => 0x04
  | .lrcCompute => 0x10
  | .lrcCheck => 0x11
  | .hexEnc8 => 0x20
  | .hexEnc16 => 0x21
  | .hexDec8 => 0x22
  | .hexDec16 => 0x23

/-- R71, "reads ports": a command takes exactly the ports its row names. HEX_ENC8 and LRC_CHECK take ARG[7:0] and do
not read ARG[15:8] (R106, R122, D23). -/
def operandsOf (p : Ports) : Opcode → Instr
  | .encodeRead => .encodeRead p.unit p.reg p.arg
  | .encodeWrite => .encodeWrite p.unit p.reg p.arg
  | .decodeRead => .decodeRead p.unit p.inp
  | .decodeWrite => .decodeWrite p.unit p.reg p.arg p.inp
  | .lrcCompute => .lrcCompute p.inp
  | .lrcCheck => .lrcCheck p.inp (p.arg.extractLsb' 0 8)
  | .hexEnc8 => .hexEnc8 (p.arg.extractLsb' 0 8)
  | .hexEnc16 => .hexEnc16 p.arg
  | .hexDec8 => .hexDec8 p.inp
  | .hexDec16 => .hexDec16 p.inp

/-- What the block makes of the ports at issue. -/
inductive Decoded where
  /-- A command of R71 with its operands. -/
  | instr (i : Instr)
  /-- R72: the code is none of R71. -/
  | illegalCommand (cmd : Byte)
  /-- R8: the input is longer than IN_CAP, so it cannot be presented. -/
  | inputTooLong
  deriving DecidableEq, Repr

/-- R8, R71, R72: reading the ports, total on every bundle. What cannot be presented is turned away before CMD is
looked at (DEDUCED, safe: notes/assumptions/6.md); an illegal code reads no operand. -/
def decode (p : Ports) : Decoded :=
  if p.wf then
    match opcodeOf p.cmd with
    | some op => .instr (operandsOf p op)
    | none => .illegalCommand p.cmd
  else .inputTooLong

/-- R106, R122: ARG with its low byte written and ARG[15:8] as it was. -/
def withArgLow (arg : Word) (b : Byte) : Word := BitVec.ofNat 16 (arg.toNat / 256 * 256 + b.toNat)

/-- R74: "the CMD code of rule R71 plus the port values", written over the ports the host drove before: "Ports the
mnemonic does not list are not written". -/
def encodeOnto (bg : Ports) : Instr → Ports
  | .encodeRead u r a => { bg with cmd := opcodeCode .encodeRead, unit := u, reg := r, arg := a }
  | .encodeWrite u r a => { bg with cmd := opcodeCode .encodeWrite, unit := u, reg := r, arg := a }
  | .decodeRead u inp => { bg with cmd := opcodeCode .decodeRead, unit := u, inp := inp }
  | .decodeWrite u r a inp => { bg with cmd := opcodeCode .decodeWrite, unit := u, reg := r, arg := a, inp := inp }
  | .lrcCompute inp => { bg with cmd := opcodeCode .lrcCompute, inp := inp }
  | .lrcCheck inp cc => { bg with cmd := opcodeCode .lrcCheck, inp := inp, arg := withArgLow bg.arg cc }
  | .hexEnc8 b => { bg with cmd := opcodeCode .hexEnc8, arg := withArgLow bg.arg b }
  | .hexEnc16 w => { bg with cmd := opcodeCode .hexEnc16, arg := w }
  | .hexDec8 inp => { bg with cmd := opcodeCode .hexDec8, inp := inp }
  | .hexDec16 inp => { bg with cmd := opcodeCode .hexDec16, inp := inp }

/-- Ports that nobody has driven: all zero, no input (DESIGN CHOICE, safe: notes/assumptions/8.md). -/
def idlePorts : Ports := { cmd := 0, unit := 0, reg := 0, arg := 0, inp := [] }

/-- The encoding of a command with the ports it does not list at zero; their value has no effect (I12). -/
def encode (i : Instr) : Ports := encodeOnto idlePorts i

/-- The ports of an opcode-table word: its low `nbits` bits, of which CMD takes bits 7..0; every other port zero. -/
def portsOfTableWord (nbits w : Nat) : Ports := { idlePorts with cmd := BitVec.ofNat 8 (w % 2 ^ nbits) }

/-- The command the decoder reads from an opcode-table word. -/
def decodeTableWord (nbits w : Nat) : Option Instr :=
  match decode (portsOfTableWord nbits w) with
  | .instr i => some i
  | .illegalCommand _ => none
  | .inputTooLong => none

/-- R75: the expansions, with the host constants of R7. -/
def expandPseudo : Pseudo → Instr
  | .pollReq u => .encodeRead u Config.pvReg Config.pollCount
  | .pollDecode u inp => .decodeRead u inp
  | .setpointReq u raw => .encodeWrite u Config.spReg raw
  | .setpointAck u raw inp => .decodeWrite u Config.spReg raw inp

end Sys2Proof
end

