-- ==== Sys2Proof/Machine/Operands.lean ====
section
/-!
DEFINITION. Operand forms: the hex text of values, its reading, and the fields of a reply line (R9, R100-R105, R163-R165).
-/
namespace Sys2Proof.Machine

/-- R9: `hi8(w) = w[15:8]`. -/
def hi8 (w : Word) : Byte := w.extractLsb' 8 8

/-- R9: `lo8(w) = w[7:0]`. -/
def lo8 (w : Word) : Byte := w.extractLsb' 0 8

/-- R60: the code of `:`. The codes are the spec's general knowledge (PRESUMED, unsafe: notes/assumptions/21.md). -/
def chColon : Byte := 0x3A
/-- R60: the code of CR. -/
def chCR : Byte := 0x0D
/-- R60: the code of LF. -/
def chLF : Byte := 0x0A

/-- R7, R73: the wire function code READ. -/
def fcRead : Byte := 0x03
/-- R7, R73: the wire function code WRITE. -/
def fcWrite : Byte := 0x06

/-- R100: one uppercase hex digit. -/
def hexdigit (v : BitVec 4) : Byte :=
  if v ≤ 9 then 0x30 + v.setWidth 8 else 0x41 + (v.setWidth 8 - 10)

/-- R101: two characters, most significant nibble first. -/
def hex2 (b : Byte) : List Byte := [hexdigit (b.extractLsb' 4 4), hexdigit (b.extractLsb' 0 4)]

/-- R102: four characters, most significant nibble first. -/
def hex4 (w : Word) : List Byte :=
  [hexdigit (w.extractLsb' 12 4), hexdigit (w.extractLsb' 8 4), hexdigit (w.extractLsb' 4 4), hexdigit (w.extractLsb' 0 4)]

/-- R103: the value of a hex digit; `none` is the spec's ⊥. -/
def digitval (c : Byte) : Option Nat :=
  if 0x30 ≤ c ∧ c ≤ 0x39 then some (c.toNat - 0x30)
  else if 0x41 ≤ c ∧ c ≤ 0x46 then some (c.toNat - 0x41 + 10)
  else if 0x61 ≤ c ∧ c ≤ 0x66 then some (c.toNat - 0x61 + 10)
  else none

/-- R104: lowercase hex letters to uppercase, every other byte unchanged. -/
def foldByte (c : Byte) : Byte := if 0x61 ≤ c ∧ c ≤ 0x66 then c - 0x20 else c

/-- R104: `fold(s)`. -/
def fold (s : List Byte) : List Byte := s.map foldByte

/-- R105, digit by digit from the most significant, on top of the value `acc` of the digits before. -/
def hexvalFrom (acc : Nat) : List Byte → Option Nat
  | [] => some acc
  | c :: s =>
    match digitval c with
    | some d => hexvalFrom (acc * 16 + d) s
    | none => none

/-- R105: the unsigned big-endian value of hex text; `none` is ⊥. -/
def hexval (s : List Byte) : Option Nat := hexvalFrom 0 s

/-- R164: `field(i, k)` of the folded line `u`. -/
def field (u : List Byte) (i k : Nat) : Option Nat :=
  if i + k ≤ u.length then hexval ((u.drop i).take k) else none

/-- R70, R164: a 2-digit field is a `u8`. -/
def field8 (u : List Byte) (i : Nat) : Option Byte := (field u i 2).map (BitVec.ofNat 8)

/-- R70, R164: a 4-digit field is a `u16`. -/
def field16 (u : List Byte) (i : Nat) : Option Word := (field u i 4).map (BitVec.ofNat 16)

/-- R163: the marker `hex2(UNIT) ++ fc`; as text, `"03"` is `hex2(0x03)` and `"06"` is `hex2(0x06)`. -/
def marker (unit fc : Byte) : List Byte := hex2 unit ++ hex2 fc

/-- R163: the least index at which `m` (not empty) stands in `u`. -/
def findMarker (m : List Byte) : List Byte → Option Nat
  | [] => none
  | c :: u => if m.isPrefixOf (c :: u) then some 0 else (findMarker m u).map (· + 1)

/-- R161: an empty read, or a line that does not end in LF. -/
def lineIncomplete (inp : List Byte) : Bool := inp.getLast? != some chLF

/-- R165: with the checksum field at `c`, the line ends exactly with CR LF after it. The LF holds by R161. -/
def trailerAt (u : List Byte) (c : Nat) : Bool := u.length == c + 4 && u[c + 2]? == some chCR

end Sys2Proof.Machine
end

