-- ==== Sys2Proof/Machine/State.lean ====
section
/-!
DEFINITION. The state of the machine (R21) and the ways a step can stop. The block's only architectural state is the
result latch; beside it stands the host's side of the boundary, as plain data (R30).
-/
namespace Sys2Proof.Machine

/-- R200: the status codes other than 0. -/
inductive Status where
  /-- Code 1: wrong length, non-hex byte, or no reply structure. -/
  | malformedReply
  /-- Code 2: the declared checksum disagrees. -/
  | checksumMismatch
  /-- Code 3: the write reply does not echo REG and ARG. -/
  | writeRejected
  /-- Code 4: IN is empty or does not end in LF. -/
  | timeout
  /-- Code 5: CMD is no code of R71. -/
  | illegalCommand
  deriving DecidableEq, Repr

/-- R21: `div`, the scaling divisor of a measurement, in {1, 10}. -/
inductive Divisor where
  | one | ten
  deriving DecidableEq, Repr

/-- R21: the payload of a successful command. -/
inductive Payload where
  /-- Text(OUT): ENCODE_READ, ENCODE_WRITE, HEX_ENC8, HEX_ENC16. -/
  | text (out : List Byte)
  /-- Byte(v): HEX_DEC8, LRC_COMPUTE. -/
  | byte (v : Byte)
  /-- Word(v): HEX_DEC16. -/
  | word (v : Word)
  /-- Checked: LRC_CHECK on a match. -/
  | checked
  /-- Measurement(n, pv, sp, div): DECODE_READ (R24). -/
  | measurement (n : Byte) (pv : Word) (sp : Option Word) (div : Divisor)
  /-- WriteAck: DECODE_WRITE on an echo. -/
  | writeAck
  deriving DecidableEq, Repr

/-- R21: the result latch. -/
inductive Result where
  /-- No command has completed since reset. -/
  | empty
  /-- The last command succeeded. -/
  | ok (payload : Payload)
  /-- The last command failed; there is no data beside the status (R23). -/
  | err (status : Status)
  deriving DecidableEq, Repr

/-- R26: the readable registers of the register view of RESULT. CMD is written, not read. -/
inductive ResReg where
  | valid | status | kind | len
  /-- RES_OUT[i]. -/
  | out (i : Nat)
  | v | n | pv | spPresent | sp | div
  deriving DecidableEq, Repr

/-- R30, R230: what the host does at the block's boundary, one at a time (R240). -/
inductive HostMove where
  /-- Assert the reset input. -/
  | reset
  /-- Write CMD, which issues the command with the operand ports as driven (R26). -/
  | issue (p : Ports)
  /-- Read a register of the view (R26). -/
  | read (r : ResReg)
  deriving DecidableEq, Repr

/-- The machine. `result` is the block's state, all of it (R21, R28). `moves` and `lastRead` are the host's side, no
state of the block (DESIGN CHOICE, safe: notes/assumptions/2.md, 4.md). -/
structure State where
  /-- R21: RESULT. -/
  result : Result
  /-- The moves the host has still to make, the next one first: R20's "program", ordered by the host alone. -/
  moves : List HostMove
  /-- What the host's last register read returned, zero-extended; `none` before any read. -/
  lastRead : Option Word
  deriving DecidableEq, Repr

/-- Why the machine stops. -/
inductive Fault where
  /-- R23, R26, I4, I5: the host reads a register of the view that has no value. Raised by `readRegister` only. Safe:
  "a read the hardware might answer is a fault in the model" (D6). -/
  | noValue (r : ResReg)
  deriving DecidableEq, Repr

/-- What has no step. -/
inductive Refusal where
  /-- The command has no meaning in the model yet. Raised by no arm: every command has its meaning. Safe. -/
  | notModelled (mnemonic : String)
  /-- R8, I2: the input is longer than IN_CAP, which the host cannot present. Raised by `refuseLongInput` only. Safe:
  longer inputs are outside every claim (D8). -/
  | inputTooLong
  deriving DecidableEq, Repr

/-- R230: the machine right after reset. RESULT is Empty; the host has nothing pending and has read nothing. -/
def State.reset : State := { result := .empty, moves := [], lastRead := none }

end Sys2Proof.Machine
end

