-- ==== Sys2Proof/Machine/Flags.lean ====
section
/-!
DEFINITION. The checksum (R120) and the numbers of the status, kind and divisor fields (R26, R200).
-/
namespace Sys2Proof.Machine

/-- R10: `sum(s)`, an unbounded natural number. -/
def byteSum : List Byte → Nat
  | [] => 0
  | b :: s => b.toNat + byteSum s

/-- R120: `lrc(s) = (256 − (sum(s) mod 256)) mod 256`. -/
def lrc (s : List Byte) : Byte := BitVec.ofNat 8 ((256 - byteSum s % 256) % 256)

/-- R200: the number of a status. -/
def statusCode : Status → BitVec 4
  | .malformedReply => 1
  | .checksumMismatch => 2
  | .writeRejected => 3
  | .timeout => 4
  | .illegalCommand => 5

/-- R200: the status of a number; `none` for 0 (no error) and for the reserved codes 6..15, which are never produced. -/
def statusOfCode (c : Nat) : Option Status :=
  match c with
  | 1 => some .malformedReply
  | 2 => some .checksumMismatch
  | 3 => some .writeRejected
  | 4 => some .timeout
  | 5 => some .illegalCommand
  | _ => none

/-- R26: RES_KIND of a payload. -/
def kindCode : Payload → BitVec 3
  | .text _ => 0
  | .byte _ => 1
  | .word _ => 2
  | .checked => 3
  | .measurement _ _ _ _ => 4
  | .writeAck => 5

/-- R24: the divisor as a number. -/
def divisorNat : Divisor → Nat
  | .one => 1
  | .ten => 10

end Sys2Proof.Machine
end

