-- ==== Sys2Proof/Machine/RegisterView.lean ====
section
/-!
DEFINITION. The register view of RESULT (R26) and its decoder (I6).
-/
namespace Sys2Proof.Machine

/-- R26: the registers of a payload, zero-extended to 16 bits; `none` is "no value". -/
def payloadReg : Payload → ResReg → Option Word
  | _, .valid => some 1
  | _, .status => some 0
  | p, .kind => some ((kindCode p).setWidth 16)
  | .text out, .len => some (BitVec.ofNat 16 out.length)
  | .text out, .out i => (out[i]?).map (·.setWidth 16)
  | .byte v, .v => some (v.setWidth 16)
  | .word v, .v => some v
  | .measurement n _ _ _, .n => some (n.setWidth 16)
  | .measurement _ pv _ _, .pv => some pv
  | .measurement _ _ sp _, .spPresent => some (if sp.isSome then 1 else 0)
  | .measurement _ _ sp _, .sp => sp
  | .measurement _ _ _ d, .div => some (BitVec.ofNat 16 (divisorNat d))
  | _, _ => none

/-- R23, R26: a register of the view, zero-extended to 16 bits; `none` is "no value". Only an Ok carries data. -/
def readReg : Result → ResReg → Option Word
  | .empty, .valid => some 0
  | .empty, _ => none
  | .err _, .valid => some 1
  | .err e, .status => some ((statusCode e).setWidth 16)
  | .err _, _ => none
  | .ok p, r => payloadReg p r

/-- R26: the divisor of a RES_DIV value; any other value is refused (DESIGN CHOICE, unsafe: notes/assumptions/22.md). -/
def divisorOf (v : Word) : Option Divisor :=
  if v = 1 then some .one else if v = 10 then some .ten else none

/-- R26: the setpoint of a Measurement read back from the view; RES_SP_PRESENT above 1 is refused, and RES_SP is not looked
at where it is 0 (DESIGN CHOICE, unsafe: notes/assumptions/22.md). -/
def decodeSp (rd : ResReg → Option Word) : Option (Option Word) :=
  match rd .spPresent with
  | some 0 => some none
  | some 1 => (rd .sp).map some
  | _ => none

/-- R26: OUT read back from the view, `k` characters from index `i`; the high byte of a register is dropped (DESIGN CHOICE,
unsafe: notes/assumptions/22.md). -/
def decodeOut (rd : ResReg → Option Word) (i : Nat) : Nat → Option (List Byte)
  | 0 => some []
  | k + 1 =>
    match rd (.out i), decodeOut rd (i + 1) k with
    | some c, some s => some (c.setWidth 8 :: s)
    | _, _ => none

/-- R26: the payload read back from the view; `none` for the kinds 6 and 7, which never occur (I6). What it makes of data
fields that no RESULT shows is the model's choice, since I6 does not name them (DESIGN CHOICE, unsafe:
notes/assumptions/22.md): the high byte of RES_V (kind Byte) and of RES_N is dropped; a RES_LEN above 17 and any mix of
RES_N, RES_SP_PRESENT and RES_DIV are accepted; a missing field is refused. -/
def decodePayload (rd : ResReg → Option Word) : Option Payload :=
  match rd .kind with
  | some 0 => (rd .len).bind (fun l => (decodeOut rd 0 l.toNat).map .text)
  | some 1 => (rd .v).map (fun v => .byte (v.setWidth 8))
  | some 2 => (rd .v).map .word
  | some 3 => some .checked
  | some 4 =>
    (rd .n).bind fun n => (rd .pv).bind fun pv => (decodeSp rd).bind fun sp =>
      ((rd .div).bind divisorOf).map fun d => .measurement (n.setWidth 8) pv sp d
  | some 5 => some .writeAck
  | _ => none

/-- I6: RESULT read back from the view; `none` for the status codes and kinds that never occur (6..15; 6 and 7). A
RES_VALID above 1 and values wider than their fields in RES_STATUS and RES_KIND are refused too (DESIGN CHOICE, unsafe:
notes/assumptions/22.md). -/
def decodeRegs (rd : ResReg → Option Word) : Option Result :=
  match rd .valid with
  | some 0 => some .empty
  | some 1 =>
    match rd .status with
    | some 0 => (decodePayload rd).map .ok
    | some c => (statusOfCode c.toNat).map .err
    | none => none
  | _ => none

end Sys2Proof.Machine
end

