-- ==== Sys2Proof/Machine/Ops.lean ====
section
/-!
DEFINITION. The named operations on the machine: writing the result latch (R11), reporting an error (R206), reset
(R230), and the host's register read (R26).
-/
namespace Sys2Proof.Machine

/-- R27: RESULT replaced completely, whatever it held; nothing else changes. -/
def setResult (r : Result) (s : State) : State := { s with result := r }

/-- The host notes what its register read returned; the block is unchanged (DESIGN CHOICE, safe: notes/assumptions/4.md). -/
def setLastRead (v : Word) (s : State) : State := { s with lastRead := some v }

/-- R11: `ok(p)`: "writes RESULT <- Ok(p) and ends the command". -/
def complete (p : Payload) (s : State) : Host.Outcome State Fault Refusal := .next (setResult (.ok p) s)

/-- R11, R206: `raise E`, the block's only way to report an error: "writes RESULT <- Err(E) and ends the command". No
state is saved, no mode changes, no control is transferred, and there is nothing to return from (R207). -/
def raise (e : Status) (s : State) : Host.Outcome State Fault Refusal := .next (setResult (.err e) s)

/-- R204: a command reports exactly one outcome, a payload or a status. -/
def conclude : Except Status Payload → State → Host.Outcome State Fault Refusal
  | .ok p, s => complete p s
  | .error e, s => raise e s

/-- R72: an illegal code raises IllegalCommand; it reads no operand and has no other effect. -/
def takeIllegalCommand (s : State) : Host.Outcome State Fault Refusal := raise .illegalCommand s

/-- R8: an input longer than IN_CAP cannot be presented: no step. -/
def refuseLongInput (_s : State) : Host.Outcome State Fault Refusal := .refused .inputTooLong

/-- R230: the reset input: RESULT becomes Empty, and "nothing else is reset". -/
def applyReset (s : State) : Host.Outcome State Fault Refusal := .next (setResult .empty s)

/-- R23, R26: the host reads a register of the view: its value, or a fault where it has none. RESULT is unchanged. -/
def readRegister (r : ResReg) (s : State) : Host.Outcome State Fault Refusal :=
  match readReg s.result r with
  | some v => .next (setLastRead v s)
  | none => .fault (.noValue r)

/-- R46: with nothing issued, the block waits; nothing changes. -/
def waitForHost (s : State) : Host.Outcome State Fault Refusal := .next s

end Sys2Proof.Machine
end

