-- ==== Sys2Proof/Machine/HexCodec.lean ====
section
/-!
DEFINITION. The hex/ASCII codec commands (R106-R109).
-/
namespace Sys2Proof.Machine

/-- R108, R109: hex text of exactly `k` characters, or MalformedReply. -/
def parseHex (k : Nat) (inp : List Byte) : Except Status Nat :=
  if inp.length ≠ k then .error .malformedReply
  else
    match hexval inp with
    | some v => .ok v
    | none => .error .malformedReply

/-- R106: HEX_ENC8. -/
def execHexEnc8 (b : Byte) (s : State) : Host.Outcome State Fault Refusal := complete (.text (hex2 b)) s

/-- R107: HEX_ENC16. -/
def execHexEnc16 (w : Word) (s : State) : Host.Outcome State Fault Refusal := complete (.text (hex4 w)) s

/-- R108: HEX_DEC8. -/
def execHexDec8 (inp : List Byte) (s : State) : Host.Outcome State Fault Refusal :=
  conclude ((parseHex 2 inp).map (fun v => .byte (BitVec.ofNat 8 v))) s

/-- R109: HEX_DEC16. -/
def execHexDec16 (inp : List Byte) (s : State) : Host.Outcome State Fault Refusal :=
  conclude ((parseHex 4 inp).map (fun v => .word (BitVec.ofNat 16 v))) s

end Sys2Proof.Machine
end

