-- ==== Sys2Proof/Machine/LrcUnit.lean ====
section
/-!
DEFINITION. The LRC commands (R121, R122).
-/
namespace Sys2Proof.Machine

/-- R121: LRC_COMPUTE. -/
def execLrcCompute (inp : List Byte) (s : State) : Host.Outcome State Fault Refusal := complete (.byte (lrc inp)) s

/-- R122: LRC_CHECK. -/
def execLrcCheck (inp : List Byte) (cc : Byte) (s : State) : Host.Outcome State Fault Refusal :=
  if lrc inp = cc then complete .checked s else raise .checksumMismatch s

end Sys2Proof.Machine
end

