-- ==== Sys2Proof/Machine/RequestBuilder.lean ====
section
/-!
DEFINITION. The request builder (R140, R141).
-/
namespace Sys2Proof.Machine

/-- R140, R141: `body_bin`, the binary body of a request, and of a write reply (R167, R180). -/
def bodyBin (unit fc : Byte) (r a : Word) : List Byte := [unit, fc, hi8 r, lo8 r, hi8 a, lo8 a]

/-- R140, R141: `body_txt`. -/
def bodyTxt (unit fc : Byte) (r a : Word) : List Byte := hex2 unit ++ hex2 fc ++ hex4 r ++ hex4 a

/-- R63, R64: the request frame. -/
def requestFrame (unit fc : Byte) (r a : Word) : List Byte :=
  [chColon] ++ bodyTxt unit fc r a ++ hex2 (lrc (bodyBin unit fc r a)) ++ [chCR, chLF]

/-- R140: ENCODE_READ. -/
def execEncodeRead (unit : Byte) (reg arg : Word) (s : State) : Host.Outcome State Fault Refusal :=
  complete (.text (requestFrame unit fcRead reg arg)) s

/-- R141: ENCODE_WRITE. -/
def execEncodeWrite (unit : Byte) (reg arg : Word) (s : State) : Host.Outcome State Fault Refusal :=
  complete (.text (requestFrame unit fcWrite reg arg)) s

end Sys2Proof.Machine
end

