-- ==== Sys2Proof/Machine/ReplyDecoder.lean ====
section
/-!
DEFINITION. The reply decoder (R160-R181). The order of checks is R166's: line, structure, checksum, echo.
-/
namespace Sys2Proof.Machine

/-- The fields of a structurally complete read reply (R66, R67). -/
structure ReadReply where
  n : Byte
  pv : Word
  sp : Option Word
  cc : Byte
  deriving DecidableEq, Repr

/-- The fields of a structurally complete write reply (R68). -/
structure WriteReply where
  reg : Word
  value : Word
  cc : Byte
  deriving DecidableEq, Repr

/-- R170: the setpoint field, present when `n = 4`; the outer `none` is a ⊥ field. -/
def readSpField (u : List Byte) (p : Nat) (n : Byte) : Option (Option Word) :=
  if n = 4 then (field16 u (p + 10)).map some else some none

/-- R170, steps of R163-R165 after the marker at `p`: byte count, data fields, checksum field, trailer. `none` is
MalformedReply. -/
def readFieldsAt (u : List Byte) (p : Nat) : Option ReadReply :=
  (field8 u (p + 4)).bind fun n =>
    if n = 2 ∨ n = 4 then
      (field16 u (p + 6)).bind fun pv =>
        (readSpField u p n).bind fun sp =>
          (field8 u (p + 6 + 2 * n.toNat)).bind fun cc =>
            if trailerAt u (p + 6 + 2 * n.toNat) then some { n := n, pv := pv, sp := sp, cc := cc } else none
    else none

/-- R180, steps of R163-R165 after the marker at `p`. `none` is MalformedReply. -/
def writeFieldsAt (u : List Byte) (p : Nat) : Option WriteReply :=
  (field16 u (p + 4)).bind fun r =>
    (field16 u (p + 8)).bind fun v =>
      (field8 u (p + 12)).bind fun cc =>
        if trailerAt u (p + 12) then some { reg := r, value := v, cc := cc } else none

/-- R163-R165: the structure of a read reply in the folded line `u`: only the leftmost marker is tried. -/
def parseRead (unit : Byte) (u : List Byte) : Option ReadReply :=
  (findMarker (marker unit fcRead) u).bind (readFieldsAt u)

/-- R163-R165: the structure of a write reply in the folded line `u`. -/
def parseWrite (unit : Byte) (u : List Byte) : Option WriteReply :=
  (findMarker (marker unit fcWrite) u).bind (writeFieldsAt u)

/-- R170: the two bytes of the setpoint, when present. -/
def spBytes : Option Word → List Byte
  | some sp => [hi8 sp, lo8 sp]
  | none => []

/-- R167, R170: the binary body of a read reply. -/
def readBody (unit n : Byte) (pv : Word) (sp : Option Word) : List Byte :=
  [unit, fcRead, n, hi8 pv, lo8 pv] ++ spBytes sp

/-- R24, R170: the divisor is 10 for a byte count of 4 and 1 for a byte count of 2. -/
def divisorFor (n : Byte) : Divisor := if n = 4 then .ten else .one

/-- R167, R170: the checksum of a structurally complete read reply is compared, then its data are taken. -/
def judgeRead (unit : Byte) (r : ReadReply) : Except Status Payload :=
  if lrc (readBody unit r.n r.pv r.sp) ≠ r.cc then .error .checksumMismatch
  else .ok (.measurement r.n r.pv r.sp (divisorFor r.n))

/-- R167, R180, R181: checksum first, then the echo. -/
def judgeWrite (unit : Byte) (reg arg : Word) (r : WriteReply) : Except Status Payload :=
  if lrc (bodyBin unit fcWrite r.reg r.value) ≠ r.cc then .error .checksumMismatch
  else if r.reg ≠ reg ∨ r.value ≠ arg then .error .writeRejected
  else .ok .writeAck

/-- R170: what DECODE_READ makes of a line. -/
def decodeReadLine (unit : Byte) (inp : List Byte) : Except Status Payload :=
  if lineIncomplete inp then .error .timeout
  else
    match parseRead unit (fold inp) with
    | none => .error .malformedReply
    | some r => judgeRead unit r

/-- R180: what DECODE_WRITE makes of a line. -/
def decodeWriteLine (unit : Byte) (reg arg : Word) (inp : List Byte) : Except Status Payload :=
  if lineIncomplete inp then .error .timeout
  else
    match parseWrite unit (fold inp) with
    | none => .error .malformedReply
    | some r => judgeWrite unit reg arg r

/-- R170: DECODE_READ. -/
def execDecodeRead (unit : Byte) (inp : List Byte) (s : State) : Host.Outcome State Fault Refusal :=
  conclude (decodeReadLine unit inp) s

/-- R180: DECODE_WRITE. -/
def execDecodeWrite (unit : Byte) (reg arg : Word) (inp : List Byte) (s : State) : Host.Outcome State Fault Refusal :=
  conclude (decodeWriteLine unit reg arg inp) s

end Sys2Proof.Machine
end

