-- ==== Sys2Proof/Machine/Dispatch.lean ====
section
/-!
DEFINITION. One arm per command (R71): each calls the command's own meaning.
-/
namespace Sys2Proof.Machine

def exec (i : Instr) (s : State) : Host.Outcome State Fault Refusal :=
  match i with
  | .encodeRead unit reg arg => Sys2Proof.Machine.execEncodeRead unit reg arg s
  | .encodeWrite unit reg arg => Sys2Proof.Machine.execEncodeWrite unit reg arg s
  | .decodeRead unit inp => Sys2Proof.Machine.execDecodeRead unit inp s
  | .decodeWrite unit reg arg inp => Sys2Proof.Machine.execDecodeWrite unit reg arg inp s
  | .lrcCompute inp => Sys2Proof.Machine.execLrcCompute inp s
  | .lrcCheck inp cc => Sys2Proof.Machine.execLrcCheck inp cc s
  | .hexEnc8 b => Sys2Proof.Machine.execHexEnc8 b s
  | .hexEnc16 w => Sys2Proof.Machine.execHexEnc16 w s
  | .hexDec8 inp => Sys2Proof.Machine.execHexDec8 inp s
  | .hexDec16 inp => Sys2Proof.Machine.execHexDec16 inp s

end Sys2Proof.Machine
end

