-- ==== Sys2Proof/Machine/Issue.lean ====
section
/-!
DEFINITION. The host's moves at the block's boundary (R22, R26, R30, R230).
-/
namespace Sys2Proof.Machine

/-- The moves the host has still to make. -/
def State.withMoves (s : State) (ms : List HostMove) : State := { s with moves := ms }

/-- R22, R71, R72: a command is issued: the ports are sampled and decoded, and the command runs. -/
def issue (p : Ports) (s : State) : Host.Outcome State Fault Refusal :=
  match Sys2Proof.decode p with
  | .instr i => exec i s
  | .illegalCommand _ => takeIllegalCommand s
  | .inputTooLong => refuseLongInput s

/-- One move of the host, with the moves after it still pending. -/
def makeMove (m : HostMove) (s : State) : Host.Outcome State Fault Refusal :=
  match m with
  | .reset => applyReset s
  | .issue p => issue p s
  | .read r => readRegister r s

end Sys2Proof.Machine
end

