-- ==== Sys2Proof/Machine/Step.lean ====
section
/-!
DEFINITION. One step: the host's next move is taken and carried out (R6, R20, R230, R240).
-/
namespace Sys2Proof.Machine

/-- One step of the machine. With no move pending the block waits (R46; DESIGN CHOICE, safe: notes/assumptions/3.md). -/
def step (s : State) : Host.Outcome State Fault Refusal :=
  match s.moves with
  | [] => waitForHost s
  | m :: rest => makeMove m (s.withMoves rest)

/-- The host issues the opcode-table word next: CMD is the word, every other port zero, IN empty. -/
def State.withFetchWord (s : State) (nbits w : Nat) : State :=
  s.withMoves (.issue (Sys2Proof.portsOfTableWord nbits w) :: s.moves)

end Sys2Proof.Machine
end

