-- ==== Sys2Proof/Machine/Assembler.lean ====
section
/-!
DEFINITION. The assembler's syntax (R74, R75): one line of text to one command. Lexical detail the rule leaves open:
DESIGN CHOICE, safe, notes/assumptions/16.md.
-/
namespace Sys2Proof.Machine

/-- The double quote. -/
def chQuote : Char := Char.ofNat 34
/-- The backslash. -/
def chBackslash : Char := Char.ofNat 92

/-- What a character is outside a string. -/
inductive CharKind where
  | space | comment | quote | comma | bracketOpen | bracketClose | wordChar | bad
  deriving DecidableEq, Repr

/-- The letters, the digits and the underscore make up mnemonics and numbers. -/
def charKind (c : Char) : CharKind :=
  if c = ' ' ∨ c = '\t' then .space
  else if c = ';' then .comment
  else if c = chQuote then .quote
  else if c = ',' then .comma
  else if c = '[' then .bracketOpen
  else if c = ']' then .bracketClose
  else if c.isAlphanum ∨ c = '_' then .wordChar
  else .bad

/-- The tokens of a line. -/
inductive Token where
  | word (cs : List Char)
  | str (bs : List Byte)
  | comma | bracketOpen | bracketClose
  deriving DecidableEq, Repr

/-- Where the lexer stands; the lists are what it has gathered, last first. -/
inductive LexMode where
  | between
  | inWord (rev : List Char)
  | inStr (rev : List Byte)
  | inEscape (rev : List Byte)
  deriving DecidableEq, Repr

/-- The word gathered so far, if one is open. -/
def closeWord : LexMode → List Token
  | .inWord rev => [.word rev.reverse]
  | .between => []
  | .inStr _ => []
  | .inEscape _ => []

/-- R74: the escapes of a string. -/
def escapeByte (c : Char) : Option Byte :=
  if c = 'r' then some 0x0D else if c = 'n' then some 0x0A else if c = chBackslash then some 0x5C else none

/-- A character of a string, which is ASCII (R74). -/
def asciiByte (c : Char) : Option Byte := if c.toNat < 128 then some (BitVec.ofNat 8 c.toNat) else none

/-- A character outside a string: the token it ends, the token it is, and how to go on with the rest of the line. -/
def lexOutside (m : LexMode) (c : Char) (rest : LexMode → Option (List Token)) : Option (List Token) :=
  match charKind c with
  | .space => (rest .between).map (closeWord m ++ ·)
  | .comment => some (closeWord m)
  | .quote => (rest (.inStr [])).map (closeWord m ++ ·)
  | .comma => (rest .between).map (closeWord m ++ .comma :: ·)
  | .bracketOpen => (rest .between).map (closeWord m ++ .bracketOpen :: ·)
  | .bracketClose => (rest .between).map (closeWord m ++ .bracketClose :: ·)
  | .wordChar =>
    match m with
    | .inWord rev => rest (.inWord (c :: rev))
    | _ => rest (.inWord [c])
  | .bad => none

/-- A line's tokens; `none` where the line is refused. -/
def lexLine : LexMode → List Char → Option (List Token)
  | .between, [] => some []
  | .inWord rev, [] => some [.word rev.reverse]
  | .inStr _, [] => none
  | .inEscape _, [] => none
  | .between, c :: cs => lexOutside .between c (fun m => lexLine m cs)
  | .inWord rev, c :: cs => lexOutside (.inWord rev) c (fun m => lexLine m cs)
  | .inStr rev, c :: cs =>
    if c = chQuote then (lexLine .between cs).map (Token.str rev.reverse :: ·)
    else if c = chBackslash then lexLine (.inEscape rev) cs
    else (asciiByte c).bind (fun b => lexLine (.inStr (b :: rev)) cs)
  | .inEscape rev, c :: cs => (escapeByte c).bind (fun b => lexLine (.inStr (b :: rev)) cs)

/-- The value of a digit character in a base of at most 16. -/
def charDigit (base : Nat) (c : Char) : Option Nat :=
  if c.toNat < 128 then
    match digitval (BitVec.ofNat 8 c.toNat) with
    | some d => if d < base then some d else none
    | none => none
  else none

/-- Digits in a base, most significant first, on top of the value before. -/
def digitsFrom (base acc : Nat) : List Char → Option Nat
  | [] => some acc
  | c :: cs =>
    match charDigit base c with
    | some d => digitsFrom base (acc * base + d) cs
    | none => none

/-- R74: "A number is decimal or `0x`-prefixed hex". -/
def parseNumber : List Char → Option Nat
  | [] => none
  | ['0', 'x'] => none
  | '0' :: 'x' :: cs => digitsFrom 16 0 cs
  | c :: cs => digitsFrom 10 0 (c :: cs)

/-- R74: a number "must fit the port's width. Otherwise the line is refused; it is never truncated". -/
def fitNumber (w n : Nat) : Option (BitVec w) := if n < 2 ^ w then some (BitVec.ofNat w n) else none

/-- An operand of a line. -/
inductive Operand where
  | num (n : Nat)
  | bytes (bs : List Byte)
  deriving DecidableEq, Repr

/-- Where the operand parser stands. -/
inductive ParseMode where
  | first | next | after
  | listFirst
  | listNext (bs : List Byte)
  | listAfter (bs : List Byte)
  deriving DecidableEq, Repr

/-- R74: operands separated by commas; a byte list stands in brackets. -/
def parseOperands : ParseMode → List Token → Option (List Operand)
  | .first, [] => some []
  | .after, [] => some []
  | .first, .word w :: ts => (parseNumber w).bind fun n => (parseOperands .after ts).map (Operand.num n :: ·)
  | .next, .word w :: ts => (parseNumber w).bind fun n => (parseOperands .after ts).map (Operand.num n :: ·)
  | .first, .str bs :: ts => (parseOperands .after ts).map (Operand.bytes bs :: ·)
  | .next, .str bs :: ts => (parseOperands .after ts).map (Operand.bytes bs :: ·)
  | .first, .bracketOpen :: ts => parseOperands .listFirst ts
  | .next, .bracketOpen :: ts => parseOperands .listFirst ts
  | .after, .comma :: ts => parseOperands .next ts
  | .listFirst, .bracketClose :: ts => (parseOperands .after ts).map (Operand.bytes [] :: ·)
  | .listFirst, .word w :: ts =>
    (parseNumber w).bind fun n => (fitNumber 8 n).bind fun b => parseOperands (.listAfter [b]) ts
  | .listNext bs, .word w :: ts =>
    (parseNumber w).bind fun n => (fitNumber 8 n).bind fun b => parseOperands (.listAfter (bs ++ [b])) ts
  | .listAfter bs, .comma :: ts => parseOperands (.listNext bs) ts
  | .listAfter bs, .bracketClose :: ts => (parseOperands .after ts).map (Operand.bytes bs :: ·)
  | _, _ => none

/-- R71, R75: what a mnemonic names: a command or a pseudo-instruction. -/
inductive Mnemonic where
  | command (op : Opcode)
  | pollReq | pollDecode | setpointReq | setpointAck
  deriving DecidableEq, Repr

/-- R71, R75: the mnemonics. -/
def mnemonicTable : List (String × Mnemonic) :=
  [ ("ENCODE_READ", .command .encodeRead), ("ENCODE_WRITE", .command .encodeWrite),
    ("DECODE_READ", .command .decodeRead), ("DECODE_WRITE", .command .decodeWrite),
    ("LRC_COMPUTE", .command .lrcCompute), ("LRC_CHECK", .command .lrcCheck),
    ("HEX_ENC8", .command .hexEnc8), ("HEX_ENC16", .command .hexEnc16),
    ("HEX_DEC8", .command .hexDec8), ("HEX_DEC16", .command .hexDec16),
    ("POLL_REQ", .pollReq), ("POLL_DECODE", .pollDecode),
    ("SETPOINT_REQ", .setpointReq), ("SETPOINT_ACK", .setpointAck) ]

/-- R74, R75: the command of a mnemonic and its operands, each fitted to its port. -/
def buildCommand : Mnemonic → List Operand → Option Instr
  | .command .encodeRead, [.num u, .num r, .num a] =>
    (fitNumber 8 u).bind fun u => (fitNumber 16 r).bind fun r => (fitNumber 16 a).map fun a => .encodeRead u r a
  | .command .encodeWrite, [.num u, .num r, .num a] =>
    (fitNumber 8 u).bind fun u => (fitNumber 16 r).bind fun r => (fitNumber 16 a).map fun a => .encodeWrite u r a
  | .command .decodeRead, [.num u, .bytes inp] => (fitNumber 8 u).map fun u => .decodeRead u inp
  | .command .decodeWrite, [.num u, .num r, .num a, .bytes inp] =>
    (fitNumber 8 u).bind fun u => (fitNumber 16 r).bind fun r => (fitNumber 16 a).map fun a => .decodeWrite u r a inp
  | .command .lrcCompute, [.bytes inp] => some (.lrcCompute inp)
  | .command .lrcCheck, [.bytes inp, .num cc] => (fitNumber 8 cc).map fun cc => .lrcCheck inp cc
  | .command .hexEnc8, [.num b] => (fitNumber 8 b).map fun b => .hexEnc8 b
  | .command .hexEnc16, [.num w] => (fitNumber 16 w).map fun w => .hexEnc16 w
  | .command .hexDec8, [.bytes inp] => some (.hexDec8 inp)
  | .command .hexDec16, [.bytes inp] => some (.hexDec16 inp)
  | .pollReq, [.num u] => (fitNumber 8 u).map fun u => expandPseudo (.pollReq u)
  | .pollDecode, [.num u, .bytes inp] => (fitNumber 8 u).map fun u => expandPseudo (.pollDecode u inp)
  | .setpointReq, [.num u, .num raw] =>
    (fitNumber 8 u).bind fun u => (fitNumber 16 raw).map fun raw => expandPseudo (.setpointReq u raw)
  | .setpointAck, [.num u, .num raw, .bytes inp] =>
    (fitNumber 8 u).bind fun u => (fitNumber 16 raw).map fun raw => expandPseudo (.setpointAck u raw inp)
  | _, _ => none

/-- What the assembler makes of a line. -/
inductive AsmLine where
  /-- Nothing but white space or a comment. -/
  | blank
  | command (i : Instr)
  | refused
  deriving DecidableEq, Repr

/-- R74: one line: a mnemonic, then its operands. -/
def assembleTokens : List Token → AsmLine
  | [] => .blank
  | .word w :: ts =>
    match ((mnemonicTable.lookup (String.ofList w)).bind fun m => (parseOperands .first ts).bind (buildCommand m)) with
    | some i => .command i
    | none => .refused
  | _ :: _ => .refused

/-- R74: the assembler, one line at a time. -/
def assembleLine (line : String) : AsmLine :=
  match lexLine .between line.toList with
  | some ts => assembleTokens ts
  | none => .refused

end Sys2Proof.Machine
end

