-- ==== Sys2Proof/Machine/Scaling.lean ====
section
/-!
DEFINITION. Readings of raw registers (R169, R171) and the host's setpoint conversion (R31). No command uses them: the
block's results carry the raw values (R24).
-/
namespace Sys2Proof.Machine

/-- R169: `scale(raw, div)`, the exact rational `raw / div`. -/
def scale (raw : Word) (d : Divisor) : Rat := (raw.toNat : Rat) / (divisorNat d : Rat)

/-- R171: the temperature and the setpoint of a Measurement; no other RESULT has a reading (R23). -/
def readings : Result → Option (Rat × Option Rat)
  | .ok (.measurement _ pv sp d) => some (scale pv d, sp.map (scale · d))
  | .ok (.text _) => none
  | .ok (.byte _) => none
  | .ok (.word _) => none
  | .ok .checked => none
  | .ok .writeAck => none
  | .empty => none
  | .err _ => none

/-- `num / den` rounded to the nearest integer, ties to even. -/
def roundHalfEven (num den : Nat) : Nat :=
  if 2 * (num % den) < den then num / den
  else if den < 2 * (num % den) then num / den + 1
  else num / den + (num / den) % 2

/-- `⌊log2 (num / den)⌋ + 4`, for `num / den` at least 1/16. -/
def ratioLog (num den : Nat) : Nat := Nat.log2 (16 * num / den)

/-- The 53-bit significand of `num / den` as a binary64 number: nearest, ties to even. -/
def ratioSignificand (num den : Nat) : Nat := roundHalfEven (num * 2 ^ (56 - ratioLog num den)) den

/-- R169: the binary64 number nearest to `raw / div`, ties to even, as its 64 bits (PRESUMED, unsafe, G2:
notes/assumptions/14.md). A significand rounded up to 2^53 carries into the exponent. -/
def scaleF64 (raw : Word) (d : Divisor) : BitVec 64 :=
  if raw = 0 then 0
  else BitVec.ofNat 64 ((1018 + ratioLog raw.toNat (divisorNat d)) * 2 ^ 52 + ratioSignificand raw.toNat (divisorNat d))

/-- The exponent field of a binary64 number. -/
def f64Exp (t : BitVec 64) : Nat := (t.extractLsb' 52 11).toNat

/-- Neither an infinity nor a not-a-number. -/
def f64Finite (t : BitVec 64) : Bool := f64Exp t != 2047

/-- The significand of a finite binary64 number: its magnitude is `f64Significand` times
`2 ^ (max exponent 1) / 2 ^ 1075`. -/
def f64Significand (t : BitVec 64) : Nat :=
  if f64Exp t = 0 then (t.extractLsb' 0 52).toNat else (t.extractLsb' 0 52).toNat + 2 ^ 52

/-- The magnitude of the binary64 product `t × 10`, as a multiple of the unit `2 ^ (max exponent 1) / 2 ^ 1075`: the exact
product cut back to 53 bits, ties to even. A product past the largest binary64 number stays a number here; it is out of
range either way. -/
def f64TimesTen (t : BitVec 64) : Nat :=
  let m := f64Significand t * 10
  let drop := Nat.log2 m - 52
  roundHalfEven m (2 ^ drop) * 2 ^ drop

/-- R31: the magnitude of `roundHalfEven(t × 10)`, unbounded. -/
def setpointMagnitude (t : BitVec 64) : Nat :=
  let e := max (f64Exp t) 1
  if 1075 ≤ e then f64TimesTen t * 2 ^ (e - 1075) else roundHalfEven (f64TimesTen t) (2 ^ (1075 - e))

/-- R31: the host's `raw = roundHalfEven(t × 10)` on a binary64 temperature (PRESUMED, unsafe: notes/assumptions/15.md);
`none` is the caller error: `t` is not finite, or `raw` is outside 0..65535. No clamp (C6). -/
def setpointRaw (t : BitVec 64) : Option Word :=
  if f64Finite t = false then none
  else if t.msb ∧ setpointMagnitude t ≠ 0 then none
  else if 65535 < setpointMagnitude t then none
  else some (BitVec.ofNat 16 (setpointMagnitude t))

end Sys2Proof.Machine
end

