-- ==== Sys2Proof/Machine/Session.lean ====
section
/-!
DEFINITION. The DeviceSession operations as the host's move sequences (R30). `line` is what `read_line` returned.
-/
namespace Sys2Proof.Machine

/-- R30: `read_measurement`: poll request, then the reply's decoding. -/
def readMeasurementMoves (unit : Byte) (line : List Byte) : List HostMove :=
  [ .issue (encode (expandPseudo (.pollReq unit))), .issue (encode (expandPseudo (.pollDecode unit line))) ]

/-- R30, R31: `write_setpoint(t)`; `none` where the host reports a caller error and issues no command. -/
def writeSetpointMoves (unit : Byte) (t : BitVec 64) (line : List Byte) : Option (List HostMove) :=
  (setpointRaw t).map fun raw =>
    [ .issue (encode (expandPseudo (.setpointReq unit raw))), .issue (encode (expandPseudo (.setpointAck unit raw line))) ]

end Sys2Proof.Machine
end

