-- ==== Sys2Proof/Safety.lean ====
section
/-!
DEFINITION. The terms claims use: the latch holds only what the rules allow (R21, R24, R25, R61), a reply line has its
format (R66-R68), a produced frame is a RawFrame (R142), an assembler line spells a command (R74, R75), and a temperature
rounds to a raw value (R31).
-/
namespace Sys2Proof.Machine

/-- R61: the 19 characters the block writes. -/
def wireAlphabet : List Byte :=
  [0x3A, 0x0D, 0x0A, 0x30, 0x31, 0x32, 0x33, 0x34, 0x35, 0x36, 0x37, 0x38, 0x39, 0x41, 0x42, 0x43, 0x44, 0x45, 0x46]

/-- R100: the uppercase hex digits, the digit of value v at index v. -/
def upperHexDigits : List Byte :=
  [0x30, 0x31, 0x32, 0x33, 0x34, 0x35, 0x36, 0x37, 0x38, 0x39, 0x41, 0x42, 0x43, 0x44, 0x45, 0x46]

/-- R24, R25, R61: what a payload may hold: a text of at most OUT_CAP = 17 characters of the wire alphabet; a measurement
whose setpoint and divisor go with its byte count. -/
def payloadLegal : Payload → Bool
  | .text out => decide (out.length ≤ 17) && out.all (wireAlphabet.contains ·)
  | .byte _ => true
  | .word _ => true
  | .checked => true
  | .measurement n _ sp d =>
    (n == 4 && sp.isSome && d == .ten) || (n == 2 && sp == none && d == .one)
  | .writeAck => true

/-- The latch is Empty, an error, or an Ok with a legal payload. -/
def resultLegal : Result → Bool
  | .empty => true
  | .ok p => payloadLegal p
  | .err _ => true

/-- The invariant of the machine: its latch is legal. -/
abbrev State.Inv (s : State) : Prop := resultLegal s.result = true

/-- R142: the RawFrame invariant: `:`, then an even number of uppercase hex digits, then CR LF. -/
def RawFrame (out : List Byte) : Prop :=
  ∃ digits : List Byte, out = [0x3A] ++ digits ++ [0x0D, 0x0A] ∧ digits.length % 2 = 0 ∧
    ∀ c ∈ digits, c ∈ upperHexDigits

/-- R163: the marker `m` stands in `u` at index `i`. -/
def MarkerAt (m u : List Byte) (i : Nat) : Prop := (u.drop i).take 4 = m ∧ i + 4 ≤ u.length

/-- R163: the marker of a read reply: the unit's two digits, then `"03"`. -/
def readMarker (unit : Byte) : List Byte := hex2 unit ++ [0x30, 0x33]

/-- R163: the marker of a write reply: the unit's two digits, then `"06"`. -/
def writeMarker (unit : Byte) : List Byte := hex2 unit ++ [0x30, 0x36]

/-- R163: a line in which `before`, of any content, precedes `reply`, and the reply's own marker is the leftmost. -/
def LeftmostReply (m u before reply : List Byte) : Prop :=
  u = before ++ reply ∧ ∀ i < before.length, ¬ MarkerAt m u i

/-- R66: a read reply with byte count 4, from its marker on, in uppercase. -/
def readReply4 (unit : Byte) (pv sp : Word) (cc : Byte) : List Byte :=
  hex2 unit ++ [0x30, 0x33] ++ [0x30, 0x34] ++ hex4 pv ++ hex4 sp ++ hex2 cc ++ [0x0D, 0x0A]

/-- R67: a read reply with byte count 2, from its marker on, in uppercase. -/
def readReply2 (unit : Byte) (pv : Word) (cc : Byte) : List Byte :=
  hex2 unit ++ [0x30, 0x33] ++ [0x30, 0x32] ++ hex4 pv ++ hex2 cc ++ [0x0D, 0x0A]

/-- R68: a write reply, from its marker on, in uppercase. -/
def writeReply (unit : Byte) (reg value : Word) (cc : Byte) : List Byte :=
  hex2 unit ++ [0x30, 0x36] ++ hex4 reg ++ hex4 value ++ hex2 cc ++ [0x0D, 0x0A]

/-- R103: the lowercase hex digits, accepted on input; index v holds the digit of value v. -/
def lowerHexDigits : List Byte :=
  [0x30, 0x31, 0x32, 0x33, 0x34, 0x35, 0x36, 0x37, 0x38, 0x39, 0x61, 0x62, 0x63, 0x64, 0x65, 0x66]

/-- R71: the assigned command codes. -/
def assignedCodes : List Byte := [0x01, 0x02, 0x03, 0x04, 0x10, 0x11, 0x20, 0x21, 0x22, 0x23]

/-- R71, "reads ports": two bundles that agree on CMD and on every port its command reads. -/
def SamePortsRead (p q : Ports) : Prop :=
  p.cmd = q.cmd ∧
  (p.cmd = 0x01 ∨ p.cmd = 0x02 → p.unit = q.unit ∧ p.reg = q.reg ∧ p.arg = q.arg) ∧
  (p.cmd = 0x03 → p.unit = q.unit ∧ p.inp = q.inp) ∧
  (p.cmd = 0x04 → p.unit = q.unit ∧ p.reg = q.reg ∧ p.arg = q.arg ∧ p.inp = q.inp) ∧
  (p.cmd = 0x10 → p.inp = q.inp) ∧
  (p.cmd = 0x11 → p.inp = q.inp ∧ p.arg.toNat % 256 = q.arg.toNat % 256) ∧
  (p.cmd = 0x20 → p.arg.toNat % 256 = q.arg.toNat % 256) ∧
  (p.cmd = 0x21 → p.arg = q.arg) ∧
  (p.cmd = 0x22 ∨ p.cmd = 0x23 → p.inp = q.inp)

/-- R66, R67: a structurally complete read reply with checksum field `cc` for a body whose checksum is `sum`. -/
def ReadReplyForm (unit : Byte) (reply : List Byte) (cc sum : Byte) : Prop :=
  (∃ pv sp, reply = readReply4 unit pv sp cc ∧ sum = lrc [unit, 0x03, 0x04, hi8 pv, lo8 pv, hi8 sp, lo8 sp]) ∨
  (∃ pv, reply = readReply2 unit pv cc ∧ sum = lrc [unit, 0x03, 0x02, hi8 pv, lo8 pv])

/-- R74, R75: the command that a mnemonic with its operands spells: the operands in the order of R71's "reads ports", each
number at its exact value in its port; a pseudo-instruction spells its expansion. -/
inductive Spells : Mnemonic → List Operand → Instr → Prop where
  | encodeRead (u : Byte) (r a : Word) :
    Spells (.command .encodeRead) [.num u.toNat, .num r.toNat, .num a.toNat] (.encodeRead u r a)
  | encodeWrite (u : Byte) (r a : Word) :
    Spells (.command .encodeWrite) [.num u.toNat, .num r.toNat, .num a.toNat] (.encodeWrite u r a)
  | decodeRead (u : Byte) (inp : List Byte) : Spells (.command .decodeRead) [.num u.toNat, .bytes inp] (.decodeRead u inp)
  | decodeWrite (u : Byte) (r a : Word) (inp : List Byte) :
    Spells (.command .decodeWrite) [.num u.toNat, .num r.toNat, .num a.toNat, .bytes inp] (.decodeWrite u r a inp)
  | lrcCompute (inp : List Byte) : Spells (.command .lrcCompute) [.bytes inp] (.lrcCompute inp)
  | lrcCheck (inp : List Byte) (cc : Byte) : Spells (.command .lrcCheck) [.bytes inp, .num cc.toNat] (.lrcCheck inp cc)
  | hexEnc8 (b : Byte) : Spells (.command .hexEnc8) [.num b.toNat] (.hexEnc8 b)
  | hexEnc16 (w : Word) : Spells (.command .hexEnc16) [.num w.toNat] (.hexEnc16 w)
  | hexDec8 (inp : List Byte) : Spells (.command .hexDec8) [.bytes inp] (.hexDec8 inp)
  | hexDec16 (inp : List Byte) : Spells (.command .hexDec16) [.bytes inp] (.hexDec16 inp)
  | pollReq (u : Byte) : Spells .pollReq [.num u.toNat] (.encodeRead u 0x4700 2)
  | pollDecode (u : Byte) (inp : List Byte) : Spells .pollDecode [.num u.toNat, .bytes inp] (.decodeRead u inp)
  | setpointReq (u : Byte) (raw : Word) : Spells .setpointReq [.num u.toNat, .num raw.toNat] (.encodeWrite u 0x4701 raw)
  | setpointAck (u : Byte) (raw : Word) (inp : List Byte) :
    Spells .setpointAck [.num u.toNat, .num raw.toNat, .bytes inp] (.decodeWrite u 0x4701 raw inp)

/-- R22, R71, R74, R75: the width in bits of the port each operand goes to; `none` for an `in` operand. -/
def operandWidths : Mnemonic → List (Option Nat)
  | .command .encodeRead => [some 8, some 16, some 16]
  | .command .encodeWrite => [some 8, some 16, some 16]
  | .command .decodeRead => [some 8, none]
  | .command .decodeWrite => [some 8, some 16, some 16, none]
  | .command .lrcCompute => [none]
  | .command .lrcCheck => [none, some 8]
  | .command .hexEnc8 => [some 8]
  | .command .hexEnc16 => [some 16]
  | .command .hexDec8 => [none]
  | .command .hexDec16 => [none]
  | .pollReq => [some 8]
  | .pollDecode => [some 8, none]
  | .setpointReq => [some 8, some 16]
  | .setpointAck => [some 8, some 16, none]

/-- R74: a number among the operands that does not fit the width of its port. -/
def SomeNumberTooWide (m : Mnemonic) (ops : List Operand) : Prop :=
  ∃ k w n : Nat, (operandWidths m)[k]? = some (some w) ∧ ops[k]? = some (Operand.num n) ∧ 2 ^ w ≤ n

/-- R74: the tokens of one operand: a number; a string; or a byte list, each of its numbers at the byte's exact value. -/
inductive OperandTokens : Operand → List Token → Prop where
  | num {n : Nat} {w : List Char} : parseNumber w = some n → OperandTokens (.num n) [.word w]
  | str (bs : List Byte) : OperandTokens (.bytes bs) [.str bs]
  | list {bs : List Byte} {ws : List (List Char)} : ws.map parseNumber = bs.map (fun b => some b.toNat) →
    OperandTokens (.bytes bs) (.bracketOpen :: (ws.map Token.word).intersperse .comma ++ [.bracketClose])

/-- R74: the tokens of a line after its mnemonic: the operands, separated by commas. -/
inductive OperandListTokens : List Operand → List Token → Prop where
  | none : OperandListTokens [] []
  | last {o : Operand} {ts : List Token} : OperandTokens o ts → OperandListTokens [o] ts
  | more {o o' : Operand} {os : List Operand} {ts rest : List Token} : OperandTokens o ts →
    OperandListTokens (o' :: os) rest → OperandListTokens (o :: o' :: os) (ts ++ .comma :: rest)

/-- The value of digits in a base, most significant first. -/
def digitsValue (base : Nat) (ds : List Nat) : Nat := ds.foldl (fun acc d => acc * base + d) 0

/-- IEEE 754: the magnitude of a finite binary64 number (PRESUMED, unsafe: notes/assumptions/14.md). -/
def binary64Magnitude (t : BitVec 64) : Rat :=
  if t.toNat / 2 ^ 52 % 2048 = 0 then ((t.toNat % 2 ^ 52 : Nat) : Rat) / 2 ^ 1074
  else ((2 ^ 52 + t.toNat % 2 ^ 52 : Nat) : Rat) * 2 ^ (t.toNat / 2 ^ 52 % 2048) / 2 ^ 1075

/-- `n` is an integer nearest to `x`, and the even one on a tie. -/
def RoundsHalfEven (x : Rat) (n : Nat) : Prop := |x - n| ≤ 1 / 2 ∧ (|x - n| = 1 / 2 → n % 2 = 0)

/-- `q` is `x ≥ 0` cut to a binary64 significand of 53 bits, ties to even, in the least unit `2 ^ k / 2 ^ 1074` that
holds `x` in 53 bits; the exponent has no upper bound here (PRESUMED, unsafe: notes/assumptions/15.md). -/
def RoundsTo53Bits (x q : Rat) : Prop :=
  ∃ k m : Nat, (k = 0 ∨ 2 ^ 52 * (2 ^ k / 2 ^ 1074) ≤ x) ∧ x < 2 ^ 53 * (2 ^ k / 2 ^ 1074) ∧
    RoundsHalfEven (x / (2 ^ k / 2 ^ 1074)) m ∧ q = m * (2 ^ k / 2 ^ 1074)

end Sys2Proof.Machine
end

