-- ==== Sys2Proof/Certificates/Slice0/Obligations.lean ====
section
/-!
DEFINITION. The statements for the provers, from the numbered rules of spec/.
-/
open Sys2Proof Sys2Proof.Machine

/-! ## Reset, the step, and the host's moves -/

/-- R230: asserting reset empties RESULT and changes nothing else of the machine; the view then shows RES_VALID 0 and no
other value. Reset before a command: the command runs from the emptied latch; reset after it: its RESULT is replaced. -/
def Obligations.ResetInputEmptiesLatch : Prop :=
  (∀ s rest, s.moves = .reset :: rest → step s = .next { s with result := .empty, moves := rest }) ∧
  (∀ s p rest t, s.moves = .reset :: .issue p :: rest → step s = .next t →
    step t = issue p { s with result := .empty, moves := rest }) ∧
  (∀ s p rest t, s.moves = .issue p :: .reset :: rest → step s = .next t →
    step t = .next { t with result := .empty, moves := rest }) ∧
  State.reset.result = .empty ∧ readReg .empty .valid = some 0 ∧ (∀ r, r ≠ .valid → readReg .empty r = none)

/-- R21, R230: the latch right after reset is legal. -/
def Obligations.ResetLatchLegal : Prop := State.Inv State.reset

/-- R21, R24, R25, R61: whatever step is taken from a machine with a legal latch, the latch is legal after it. -/
def Obligations.StepKeepsLatchLegal : Prop :=
  ∀ s s' : State, State.Inv s → step s = .next s' → State.Inv s'

/-- R22, R71: when the host issues ports that decode to a command, the step is that command's meaning, with the move
gone from the queue. -/
def Obligations.StepRunsDecodedCommand : Prop :=
  ∀ s p rest i, s.moves = .issue p :: rest → Sys2Proof.decode p = .instr i → step s = exec i { s with moves := rest }

/-- R72: every code that is not assigned (246 of 256, 0x00 and 0xFF among them) raises IllegalCommand, whatever the
other ports hold, and does nothing else. Every assigned code is a command. -/
def Obligations.IllegalCommandRaises : Prop :=
  (∀ s p rest, s.moves = .issue p :: rest → p.wf = true → p.cmd ∉ assignedCodes →
    step s = .next { s with result := .err .illegalCommand, moves := rest }) ∧
  (∀ p : Ports, p.wf = true → p.cmd ∈ assignedCodes → ∃ i, Sys2Proof.decode p = .instr i) ∧
  ((List.range 256).filter (fun c => !assignedCodes.contains (BitVec.ofNat 8 c))).length = 246 ∧
  (0x00 : Byte) ∉ assignedCodes ∧ (0xFF : Byte) ∉ assignedCodes

/-- R8: IN_CAP is at least 19; a longer input is refused; with every input up to IN_CAP, every issue has a next state. -/
def Obligations.InputCapacity : Prop :=
  19 ≤ Config.inCap ∧
  (∀ s p rest, s.moves = .issue p :: rest → Config.inCap < p.inp.length → step s = .refused .inputTooLong) ∧
  (∀ s p rest, s.moves = .issue p :: rest → p.inp.length ≤ Config.inCap → ∃ t, step s = .next t)

/-- R46 (and log entry 3, the model's choice that a step without a move is a next state): the block waits. -/
def Obligations.WaitsForFirstMove : Prop := ∀ s : State, s.moves = [] → step s = .next s

/-- R23, R26: a register read returns the register's value and leaves RESULT alone, or faults where the register has no
value; with RESULT Empty or Err no data field has one. -/
def Obligations.RegisterReadReturnsOrFaults : Prop :=
  (∀ s r rest v, s.moves = .read r :: rest → readReg s.result r = some v →
    step s = .next { s with moves := rest, lastRead := some v }) ∧
  (∀ s r rest, s.moves = .read r :: rest → readReg s.result r = none → step s = .fault (.noValue r)) ∧
  (∀ r, r ≠ .valid → r ≠ .status → ∀ e, readReg (.err e) r = none ∧ readReg .empty r = none)

/-- R26, R200: the register view of every RESULT. -/
def Obligations.RegisterViewOfEachResult : Prop :=
  (∀ q, readReg .empty q = match q with
    | .valid => some 0
    | _ => none) ∧
  (∀ e q, readReg (.err e) q = match q, e with
    | .valid, _ => some 1
    | .status, .malformedReply => some 1
    | .status, .checksumMismatch => some 2
    | .status, .writeRejected => some 3
    | .status, .timeout => some 4
    | .status, .illegalCommand => some 5
    | _, _ => none) ∧
  (∀ out q, readReg (.ok (.text out)) q = match q with
    | .valid => some 1
    | .status => some 0
    | .kind => some 0
    | .len => some (BitVec.ofNat 16 out.length)
    | .out i => (out[i]?).map (·.setWidth 16)
    | _ => none) ∧
  (∀ v q, readReg (.ok (.byte v)) q = match q with
    | .valid => some 1
    | .status => some 0
    | .kind => some 1
    | .v => some (v.setWidth 16)
    | _ => none) ∧
  (∀ v q, readReg (.ok (.word v)) q = match q with
    | .valid => some 1
    | .status => some 0
    | .kind => some 2
    | .v => some v
    | _ => none) ∧
  (∀ q, readReg (.ok .checked) q = match q with
    | .valid => some 1
    | .status => some 0
    | .kind => some 3
    | _ => none) ∧
  (∀ n pv sp d q, readReg (.ok (.measurement n pv sp d)) q = match q, sp, d with
    | .valid, _, _ => some 1
    | .status, _, _ => some 0
    | .kind, _, _ => some 4
    | .n, _, _ => some (n.setWidth 16)
    | .pv, _, _ => some pv
    | .spPresent, some _, _ => some 1
    | .spPresent, none, _ => some 0
    | .sp, some w, _ => some w
    | .div, _, .one => some 1
    | .div, _, .ten => some 10
    | _, _, _ => none) ∧
  (∀ q, readReg (.ok .writeAck) q = match q with
    | .valid => some 1
    | .status => some 0
    | .kind => some 5
    | _ => none)

/-- R26: "The tagged value of rule R21 stays the normative state": every legal RESULT is read back from its view. -/
def Obligations.RegisterViewDeterminesResult : Prop :=
  ∀ r : Result, resultLegal r = true → decodeRegs (readReg r) = some r

/-- I6, R200: a view that shows a reserved status code or a kind of 6 or more is refused by the view's decoder. For codes
above 15 and kinds above 7, which are wider than their fields, that is the model's choice (log entry 22). -/
def Obligations.RegisterViewReservedRefused : Prop :=
  (∀ (rd : ResReg → Option Word) c, rd .valid = some 1 → rd .status = some c → 6 ≤ c.toNat → decodeRegs rd = none) ∧
  (∀ (rd : ResReg → Option Word) k, rd .valid = some 1 → rd .status = some 0 → rd .kind = some k → 6 ≤ k.toNat →
    decodeRegs rd = none)

/-! ## The command encoding -/

/-- R71, R74: over any ports the host drove before, the encoding of a presentable command decodes to that command, with
every operand at every value. -/
def Obligations.DecodeEncodeAgree : Prop :=
  ∀ (bg : Ports) (i : Instr), bg.wf = true → i.wf = true → Sys2Proof.decode (encodeOnto bg i) = .instr i

/-- R71: nothing a command reads is lost in decoding: writing the decoded command's ports back changes nothing. What is
decoded can be presented (R8). -/
def Obligations.EncodingRestoresDecodedPorts : Prop :=
  ∀ (p : Ports) (i : Instr), Sys2Proof.decode p = .instr i → encodeOnto p i = p ∧ i.wf = true

/-- R22: the ports a command does not read do not affect its outcome; ARG[15:8] is not read by HEX_ENC8 and LRC_CHECK
(R106, R122). An illegal code reads no port (R72). -/
def Obligations.UnreadPortsWithoutEffect : Prop :=
  ∀ (p q : Ports) (s : State), p.wf = true → q.wf = true → SamePortsRead p q → issue p s = issue q s

/-- R71: the ten codes, each with ports at zero. -/
def Obligations.CommandCodesDecode : Prop :=
  decodeTableWord 8 0x01 = some (.encodeRead 0 0 0) ∧ decodeTableWord 8 0x02 = some (.encodeWrite 0 0 0) ∧
  decodeTableWord 8 0x03 = some (.decodeRead 0 []) ∧ decodeTableWord 8 0x04 = some (.decodeWrite 0 0 0 []) ∧
  decodeTableWord 8 0x10 = some (.lrcCompute []) ∧ decodeTableWord 8 0x11 = some (.lrcCheck [] 0) ∧
  decodeTableWord 8 0x20 = some (.hexEnc8 0) ∧ decodeTableWord 8 0x21 = some (.hexEnc16 0) ∧
  decodeTableWord 8 0x22 = some (.hexDec8 []) ∧ decodeTableWord 8 0x23 = some (.hexDec16 [])

/-- R75: the pseudo-instructions' expansions. -/
def Obligations.PseudoExpansions : Prop :=
  (∀ u, expandPseudo (.pollReq u) = .encodeRead u 0x4700 2) ∧
  (∀ u inp, expandPseudo (.pollDecode u inp) = .decodeRead u inp) ∧
  (∀ u raw, expandPseudo (.setpointReq u raw) = .encodeWrite u 0x4701 raw) ∧
  (∀ u raw inp, expandPseudo (.setpointAck u raw inp) = .decodeWrite u 0x4701 raw inp)

/-- R74: the assembler never truncates: with any operands, a mnemonic gives exactly the command they spell, each number at
its exact value in its port, and none where a number is too wide; the line with such a number is refused. -/
def Obligations.AssemblerNeverTruncates : Prop :=
  (∀ (w n : Nat), (∀ b, fitNumber w n = some b → b.toNat = n) ∧ (fitNumber w n = none ↔ 2 ^ w ≤ n)) ∧
  (∀ m ops i, buildCommand m ops = some i ↔ Spells m ops i) ∧
  (∀ m ops, SomeNumberTooWide m ops → buildCommand m ops = none) ∧
  (∀ line name m ts ops, lexLine .between line.toList = some (.word name :: ts) →
    mnemonicTable.lookup (String.ofList name) = some m → parseOperands .first ts = some ops → SomeNumberTooWide m ops →
    assembleLine line = .refused)

/-- R74 (with log entry 16 for the tokens of a line): the lines that give a command, and the command of each: a mnemonic,
then the operands' tokens, the command being the one they spell. A number of a byte list that is no byte spells none. -/
def Obligations.AssemblerLinesExactly : Prop :=
  (∀ line i, assembleLine line = .command i ↔
    ∃ name m ts ops, lexLine .between line.toList = some (.word name :: ts) ∧
      mnemonicTable.lookup (String.ofList name) = some m ∧ OperandListTokens ops ts ∧ Spells m ops i) ∧
  (∀ line, assembleLine line = .blank ↔ lexLine .between line.toList = some [])

/-- R74: the text of a line to the port: a number in decimal or in `0x` hex reaches ARG at its value, or its line is
refused, for every number of digits. HEX_ENC16 stands for the mnemonics; log entry 16 has the case of the digits. -/
def Obligations.AssemblerReadsNumbersExactly : Prop :=
  ∀ ds : List Nat, ds ≠ [] →
    ((∀ d ∈ ds, d < 10) → assembleLine (String.ofList ("HEX_ENC16 ".toList ++ ds.map Nat.digitChar)) =
      if digitsValue 10 ds < 65536 then .command (.hexEnc16 (BitVec.ofNat 16 (digitsValue 10 ds))) else .refused) ∧
    ((∀ d ∈ ds, d < 16) → assembleLine (String.ofList ("HEX_ENC16 0x".toList ++ ds.map Nat.digitChar)) =
      if digitsValue 16 ds < 65536 then .command (.hexEnc16 (BitVec.ofNat 16 (digitsValue 16 ds))) else .refused)

/-! ## All commands -/

/-- R27: every command is a total function of its operands: it never reads RESULT (nor anything else of the machine),
its completion replaces RESULT by Ok or Err whatever it held, and it has no other effect. -/
def Obligations.CommandsOnlyReplaceResult : Prop :=
  ∀ i : Instr, ∃ r : Result, r ≠ .empty ∧ ∀ s : State, exec i s = .next { s with result := r }

/-- R28, R207, R231: RESULT after a command does not depend on what the machine did before: no error is sticky, and the
first command after reset is no different. -/
def Obligations.NextResultIndependentOfHistory : Prop :=
  ∀ (p : Ports) (s s' t t' : State) rest rest', s.moves = .issue p :: rest → s'.moves = .issue p :: rest' →
    step s = .next t → step s' = .next t' → t.result = t'.result ∧ t.moves = rest ∧ t.lastRead = s.lastRead

/-- R201: ENCODE_READ, ENCODE_WRITE, HEX_ENC8, HEX_ENC16 and LRC_COMPUTE give Ok for every operand value. -/
def Obligations.FiveCommandsCannotFail : Prop :=
  ∀ s : State,
    (∀ u r a, ∃ p, exec (.encodeRead u r a) s = .next { s with result := .ok p }) ∧
    (∀ u r a, ∃ p, exec (.encodeWrite u r a) s = .next { s with result := .ok p }) ∧
    (∀ b, ∃ p, exec (.hexEnc8 b) s = .next { s with result := .ok p }) ∧
    (∀ w, ∃ p, exec (.hexEnc16 w) s = .next { s with result := .ok p }) ∧
    (∀ inp, ∃ p, exec (.lrcCompute inp) s = .next { s with result := .ok p })

/-! ## The hex codec -/

/-- R103, R61: which characters are hex digits, and their values: 22 of the 256 byte values. -/
def Obligations.HexDigitValues : Prop :=
  (∀ c d, digitval c = some d ↔ upperHexDigits[d]? = some c ∨ lowerHexDigits[d]? = some c) ∧
  ((List.range 256).filter (fun c => (digitval (BitVec.ofNat 8 c)).isSome)).length = 22

/-- R106: HEX_ENC8 renders ARG[7:0] as two uppercase characters, high nibble first. -/
def Obligations.HexEnc8Result : Prop :=
  (∀ p : Ports, p.wf = true → p.cmd = 0x20 →
    ∃ b : Byte, Sys2Proof.decode p = .instr (.hexEnc8 b) ∧ b.toNat = p.arg.toNat % 256) ∧
  (∀ (b : Byte) (s : State), ∃ c0 c1,
    upperHexDigits[b.toNat / 16]? = some c0 ∧ upperHexDigits[b.toNat % 16]? = some c1 ∧
    exec (.hexEnc8 b) s = .next { s with result := .ok (.text [c0, c1]) })

/-- R107: HEX_ENC16 renders ARG as four uppercase characters, most significant first. -/
def Obligations.HexEnc16Result : Prop :=
  (∀ p : Ports, p.wf = true → p.cmd = 0x21 → Sys2Proof.decode p = .instr (.hexEnc16 p.arg)) ∧
  (∀ (w : Word) (s : State), ∃ c0 c1 c2 c3,
    upperHexDigits[w.toNat / 4096]? = some c0 ∧ upperHexDigits[w.toNat / 256 % 16]? = some c1 ∧
    upperHexDigits[w.toNat / 16 % 16]? = some c2 ∧ upperHexDigits[w.toNat % 16]? = some c3 ∧
    exec (.hexEnc16 w) s = .next { s with result := .ok (.text [c0, c1, c2, c3]) })

/-- R108: HEX_DEC8 takes exactly two hex digits of either case; every other input is MalformedReply. -/
def Obligations.HexDec8Result : Prop :=
  (∀ p : Ports, p.wf = true → p.cmd = 0x22 → Sys2Proof.decode p = .instr (.hexDec8 p.inp)) ∧
  (∀ (s : State) a b x y, digitval a = some x → digitval b = some y →
    ∃ v : Byte, v.toNat = 16 * x + y ∧ exec (.hexDec8 [a, b]) s = .next { s with result := .ok (.byte v) }) ∧
  (∀ (s : State) inp, inp.length ≠ 2 ∨ (∃ c ∈ inp, digitval c = none) →
    exec (.hexDec8 inp) s = .next { s with result := .err .malformedReply })

/-- R109: HEX_DEC16 takes exactly four hex digits of either case; every other input is MalformedReply. -/
def Obligations.HexDec16Result : Prop :=
  (∀ p : Ports, p.wf = true → p.cmd = 0x23 → Sys2Proof.decode p = .instr (.hexDec16 p.inp)) ∧
  (∀ (s : State) a b c d x y z t,
    digitval a = some x → digitval b = some y → digitval c = some z → digitval d = some t →
    ∃ v : Word, v.toNat = 4096 * x + 256 * y + 16 * z + t ∧
      exec (.hexDec16 [a, b, c, d]) s = .next { s with result := .ok (.word v) }) ∧
  (∀ (s : State) inp, inp.length ≠ 4 ∨ (∃ c ∈ inp, digitval c = none) →
    exec (.hexDec16 inp) s = .next { s with result := .err .malformedReply })

/-- R110: the round-trip laws of the codec. -/
def Obligations.HexRoundTripLaws : Prop :=
  (∀ b : Byte, hexval (hex2 b) = some b.toNat) ∧
  (∀ w : Word, hexval (hex4 w) = some w.toNat) ∧
  (∀ s v, s.length = 2 → hexval s = some v → v < 256 ∧ hex2 (BitVec.ofNat 8 v) = fold s) ∧
  Function.Injective hex2 ∧ Function.Injective hex4

/-! ## The checksum -/

/-- R121, R120: LRC_COMPUTE gives `(256 − (sum mod 256)) mod 256`, with the sum over the bytes of IN. -/
def Obligations.LrcComputeResult : Prop :=
  (∀ p : Ports, p.wf = true → p.cmd = 0x10 → Sys2Proof.decode p = .instr (.lrcCompute p.inp)) ∧
  (∀ (inp : List Byte) (s : State), ∃ c : Byte, c.toNat = (256 - (inp.map BitVec.toNat).sum % 256) % 256 ∧
    exec (.lrcCompute inp) s = .next { s with result := .ok (.byte c) })

/-- R122: LRC_CHECK answers Checked when the declared checksum ARG[7:0] is the recomputed one, and ChecksumMismatch
whenever it differs. -/
def Obligations.LrcCheckResult : Prop :=
  (∀ p : Ports, p.wf = true → p.cmd = 0x11 →
    ∃ cc : Byte, Sys2Proof.decode p = .instr (.lrcCheck p.inp cc) ∧ cc.toNat = p.arg.toNat % 256) ∧
  (∀ (inp : List Byte) (cc : Byte) (s : State),
    (cc.toNat = (256 - (inp.map BitVec.toNat).sum % 256) % 256 →
      exec (.lrcCheck inp cc) s = .next { s with result := .ok .checked }) ∧
    (cc.toNat ≠ (256 - (inp.map BitVec.toNat).sum % 256) % 256 →
      exec (.lrcCheck inp cc) s = .next { s with result := .err .checksumMismatch }))

/-- R123: a body and its checksum sum to 0 mod 256, and no other checksum does. -/
def Obligations.LrcZeroSum : Prop :=
  ∀ s : List Byte, ((s.map BitVec.toNat).sum + (lrc s).toNat) % 256 = 0 ∧
    ∀ c : Byte, ((s.map BitVec.toNat).sum + c.toNat) % 256 = 0 → c = lrc s

/-- R124: one changed body byte changes the checksum; a changed declared checksum is detected; so is every digit of it
replaced by a digit of another value, and a change of case is none; reordering, and two changes whose differences sum to a
multiple of 256, are not detected. -/
def Obligations.LrcDetection : Prop :=
  (∀ front back (x y : Byte), x ≠ y → lrc (front ++ x :: back) ≠ lrc (front ++ y :: back)) ∧
  (∀ body cc (s : State), cc ≠ lrc body →
    exec (.lrcCheck body cc) s = .next { s with result := .err .checksumMismatch }) ∧
  (∀ body a b c v (s : State), hexval [a, b] = some (lrc body).toNat → digitval c ≠ digitval a → hexval [c, b] = some v →
    exec (.lrcCheck body (BitVec.ofNat 8 v)) s = .next { s with result := .err .checksumMismatch }) ∧
  (∀ body a b c v (s : State), hexval [a, b] = some (lrc body).toNat → digitval c ≠ digitval b → hexval [a, c] = some v →
    exec (.lrcCheck body (BitVec.ofNat 8 v)) s = .next { s with result := .err .checksumMismatch }) ∧
  (∀ a b c, digitval c = digitval a → hexval [c, b] = hexval [a, b]) ∧
  (∀ a b c, digitval c = digitval b → hexval [a, c] = hexval [a, b]) ∧
  (∀ s t : List Byte, s.Perm t → lrc s = lrc t) ∧
  (∀ front middle back (x y x' y' : Byte), (x.toNat + y.toNat) % 256 = (x'.toNat + y'.toNat) % 256 →
    lrc (front ++ x :: middle ++ y :: back) = lrc (front ++ x' :: middle ++ y' :: back))

/-! ## The request builder -/

/-- R140: ENCODE_READ builds the read request of R63. -/
def Obligations.EncodeReadResult : Prop :=
  (∀ p : Ports, p.wf = true → p.cmd = 0x01 → Sys2Proof.decode p = .instr (.encodeRead p.unit p.reg p.arg)) ∧
  (∀ (u : Byte) (r a : Word) (s : State), exec (.encodeRead u r a) s = .next { s with result := .ok (.text
    ([0x3A] ++ hex2 u ++ [0x30, 0x33] ++ hex4 r ++ hex4 a ++ hex2 (lrc [u, 0x03, hi8 r, lo8 r, hi8 a, lo8 a])
      ++ [0x0D, 0x0A])) })

/-- R141: ENCODE_WRITE builds the write request of R64. -/
def Obligations.EncodeWriteResult : Prop :=
  (∀ p : Ports, p.wf = true → p.cmd = 0x02 → Sys2Proof.decode p = .instr (.encodeWrite p.unit p.reg p.arg)) ∧
  (∀ (u : Byte) (r a : Word) (s : State), exec (.encodeWrite u r a) s = .next { s with result := .ok (.text
    ([0x3A] ++ hex2 u ++ [0x30, 0x36] ++ hex4 r ++ hex4 a ++ hex2 (lrc [u, 0x06, hi8 r, lo8 r, hi8 a, lo8 a])
      ++ [0x0D, 0x0A])) })

/-- R142: every produced frame is a RawFrame: `:`, 14 uppercase hex digits, CR LF, and the sum of the binary body with the
checksum its last pair stands for is 0 mod 256. -/
def Obligations.ProducedFramesAreRawFrames : Prop :=
  ∀ (i : Instr) (s t : State) out u r a, i = .encodeRead u r a ∨ i = .encodeWrite u r a →
    exec i s = .next t → t.result = .ok (.text out) →
    RawFrame out ∧
    ∃ body : List Byte, ∃ cc : Byte, out = [0x3A] ++ body.flatMap hex2 ++ hex2 cc ++ [0x0D, 0x0A] ∧ body.length = 6 ∧
      ((body.map BitVec.toNat).sum + cc.toNat) % 256 = 0

/-- R143: different operands give different frames, and a read request is never a write request. -/
def Obligations.EncoderInjective : Prop :=
  ∀ (s : State) u r a u' r' a',
    (exec (.encodeRead u r a) s = exec (.encodeRead u' r' a') s → u = u' ∧ r = r' ∧ a = a') ∧
    (exec (.encodeWrite u r a) s = exec (.encodeWrite u' r' a') s → u = u' ∧ r = r' ∧ a = a') ∧
    exec (.encodeRead u r a) s ≠ exec (.encodeWrite u' r' a') s

/-- R145: every request frame has 17 bytes, and no output of the block has more. -/
def Obligations.OutputLengths : Prop :=
  ∀ (i : Instr) (s t : State) out, exec i s = .next t → t.result = .ok (.text out) →
    out.length ≤ Config.outCap ∧ Config.outCap = 17 ∧
    (∀ u r a, i = .encodeRead u r a ∨ i = .encodeWrite u r a → out.length = 17) ∧
    (∀ b, i = .hexEnc8 b → out.length = 2) ∧ (∀ w, i = .hexEnc16 w → out.length = 4)

/-! ## The reply decoder -/

/-- R160, R161, R166: decoding is fail-closed: every line gives Ok or one of the decoder's own errors, and it is Timeout
exactly for an empty line or one that does not end in LF. -/
def Obligations.DecodingFailsClosed : Prop :=
  (∀ u inp, ∃ r : Result,
    ((∃ pv sp, r = .ok (.measurement 4 pv (some sp) .ten)) ∨ (∃ pv, r = .ok (.measurement 2 pv none .one)) ∨
      r = .err .timeout ∨ r = .err .malformedReply ∨ r = .err .checksumMismatch) ∧
    (r = .err .timeout ↔ inp = [] ∨ inp.getLast? ≠ some 0x0A) ∧
    ∀ s : State, exec (.decodeRead u inp) s = .next { s with result := r }) ∧
  (∀ u reg arg inp, ∃ r : Result,
    (r = .ok .writeAck ∨ r = .err .timeout ∨ r = .err .malformedReply ∨ r = .err .checksumMismatch ∨
      r = .err .writeRejected) ∧
    (r = .err .timeout ↔ inp = [] ∨ inp.getLast? ≠ some 0x0A) ∧
    ∀ s : State, exec (.decodeWrite u reg arg inp) s = .next { s with result := r })

/-- R170, R66, R163, R165, R167: DECODE_READ answers a two-register measurement exactly for the lines that hold, at their
leftmost marker and to their end, the reply of those two values with the right checksum, in either case. -/
def Obligations.ReadAcceptsExactlyTwoRegisterReplies : Prop :=
  ∀ (s : State) u inp pv sp,
    exec (.decodeRead u inp) s = .next { s with result := .ok (.measurement 4 pv (some sp) .ten) } ↔
    ∃ before, LeftmostReply (readMarker u) (fold inp) before
      (readReply4 u pv sp (lrc [u, 0x03, 0x04, hi8 pv, lo8 pv, hi8 sp, lo8 sp]))

/-- R170, R67, R171: the same for one register, byte count 2: setpoint absent, divisor 1. -/
def Obligations.ReadAcceptsExactlyOneRegisterReplies : Prop :=
  ∀ (s : State) u inp pv,
    exec (.decodeRead u inp) s = .next { s with result := .ok (.measurement 2 pv none .one) } ↔
    ∃ before, LeftmostReply (readMarker u) (fold inp) before
      (readReply2 u pv (lrc [u, 0x03, 0x02, hi8 pv, lo8 pv]))

/-- R166, R167: DECODE_READ reports ChecksumMismatch exactly for a structurally complete reply whose checksum field is not
the checksum of its body. -/
def Obligations.ReadChecksumMismatchExactly : Prop :=
  ∀ (s : State) u inp,
    exec (.decodeRead u inp) s = .next { s with result := .err .checksumMismatch } ↔
    ∃ before reply cc sum, ReadReplyForm u reply cc sum ∧ cc ≠ sum ∧
      LeftmostReply (readMarker u) (fold inp) before reply

/-- R163-R166: DECODE_READ reports MalformedReply exactly for a line that ends in LF and holds no structurally complete
reply at its leftmost marker. -/
def Obligations.ReadMalformedExactly : Prop :=
  ∀ (s : State) u inp,
    exec (.decodeRead u inp) s = .next { s with result := .err .malformedReply } ↔
    inp.getLast? = some 0x0A ∧
      ¬ ∃ before reply cc sum, ReadReplyForm u reply cc sum ∧
        LeftmostReply (readMarker u) (fold inp) before reply

/-- R180, R181, R166: the four outcomes of DECODE_WRITE on a structurally complete reply: the checksum is tested first,
then the echo; and each outcome arises only so. -/
def Obligations.WriteOutcomesExactly : Prop :=
  ∀ (s : State) u reg arg inp,
    (exec (.decodeWrite u reg arg inp) s = .next { s with result := .ok .writeAck } ↔
      ∃ before, LeftmostReply (writeMarker u) (fold inp) before
        (writeReply u reg arg (lrc [u, 0x06, hi8 reg, lo8 reg, hi8 arg, lo8 arg]))) ∧
    (exec (.decodeWrite u reg arg inp) s = .next { s with result := .err .writeRejected } ↔
      ∃ before r v, (r ≠ reg ∨ v ≠ arg) ∧ LeftmostReply (writeMarker u) (fold inp) before
        (writeReply u r v (lrc [u, 0x06, hi8 r, lo8 r, hi8 v, lo8 v]))) ∧
    (exec (.decodeWrite u reg arg inp) s = .next { s with result := .err .checksumMismatch } ↔
      ∃ before r v cc, cc ≠ lrc [u, 0x06, hi8 r, lo8 r, hi8 v, lo8 v] ∧
        LeftmostReply (writeMarker u) (fold inp) before (writeReply u r v cc)) ∧
    (exec (.decodeWrite u reg arg inp) s = .next { s with result := .err .malformedReply } ↔
      inp.getLast? = some 0x0A ∧ ¬ ∃ before r v cc,
        LeftmostReply (writeMarker u) (fold inp) before (writeReply u r v cc))

/-- R185: the write request, echoed unchanged, is acknowledged; the echo is spelled out. -/
def Obligations.WriteRoundTrip : Prop :=
  ∀ u reg arg, ∃ out : List Byte,
    out = [0x3A] ++ hex2 u ++ [0x30, 0x36] ++ hex4 reg ++ hex4 arg
      ++ hex2 (lrc [u, 0x06, hi8 reg, lo8 reg, hi8 arg, lo8 arg]) ++ [0x0D, 0x0A] ∧
    (∀ s : State, exec (.encodeWrite u reg arg) s = .next { s with result := .ok (.text out) }) ∧
    (∀ s : State, exec (.decodeWrite u reg arg out) s = .next { s with result := .ok .writeAck })

/-- R186: a correctly formed reply gives back its register values. -/
def Obligations.ReadRoundTrip : Prop :=
  ∀ (s : State) u pv sp,
    exec (.decodeRead u ([0x3A] ++ hex2 u ++ [0x30, 0x33] ++ [0x30, 0x34] ++ hex4 pv ++ hex4 sp
      ++ hex2 (lrc [u, 0x03, 0x04, hi8 pv, lo8 pv, hi8 sp, lo8 sp]) ++ [0x0D, 0x0A])) s
      = .next { s with result := .ok (.measurement 4 pv (some sp) .ten) } ∧
    exec (.decodeRead u ([0x3A] ++ hex2 u ++ [0x30, 0x33] ++ [0x30, 0x32] ++ hex4 pv
      ++ hex2 (lrc [u, 0x03, 0x02, hi8 pv, lo8 pv]) ++ [0x0D, 0x0A])) s
      = .next { s with result := .ok (.measurement 2 pv none .one) }

/-- R187: replace one digit of the checksum field of any accepted reply by a hex digit of a different value: the result is
ChecksumMismatch. The field stands at the fourth and third byte from the end (R165). -/
def Obligations.TamperedChecksumDetected : Prop :=
  (∀ (s : State) u inp p k c, exec (.decodeRead u inp) s = .next { s with result := .ok p } →
    k + 4 = inp.length ∨ k + 3 = inp.length → digitval c ≠ none → digitval c ≠ (inp[k]?).bind digitval →
    exec (.decodeRead u (inp.set k c)) s = .next { s with result := .err .checksumMismatch }) ∧
  (∀ (s : State) u reg arg inp p k c, exec (.decodeWrite u reg arg inp) s = .next { s with result := .ok p } →
    k + 4 = inp.length ∨ k + 3 = inp.length → digitval c ≠ none → digitval c ≠ (inp[k]?).bind digitval →
    exec (.decodeWrite u reg arg (inp.set k c)) s = .next { s with result := .err .checksumMismatch })

/-- R162: two lines that differ only in the case of hex letters decode alike. -/
def Obligations.DecodingIgnoresCase : Prop :=
  ∀ (s : State) inp inp', fold inp = fold inp' →
    (∀ u, exec (.decodeRead u inp) s = exec (.decodeRead u inp') s) ∧
    (∀ u reg arg, exec (.decodeWrite u reg arg inp) s = exec (.decodeWrite u reg arg inp') s)

/-- R163: bytes before the marker are not examined: noise in front of a line, in which no marker begins, changes nothing. -/
def Obligations.LeadingNoiseSkipped : Prop :=
  (∀ (s : State) u noise inp, inp ≠ [] →
    (∀ i < noise.length, ¬ MarkerAt (readMarker u) (fold (noise ++ inp)) i) →
    exec (.decodeRead u (noise ++ inp)) s = exec (.decodeRead u inp) s) ∧
  (∀ (s : State) u reg arg noise inp, inp ≠ [] →
    (∀ i < noise.length, ¬ MarkerAt (writeMarker u) (fold (noise ++ inp)) i) →
    exec (.decodeWrite u reg arg (noise ++ inp)) s = exec (.decodeWrite u reg arg inp) s)

/-- R163, R73: a terminated line without the marker of the command is malformed; a Modbus exception reply is one unless
the marker occurs elsewhere in it. -/
def Obligations.MissingMarkerMalformed : Prop :=
  (∀ (s : State) u inp, inp.getLast? = some 0x0A → (∀ i, ¬ MarkerAt (readMarker u) (fold inp) i) →
    exec (.decodeRead u inp) s = .next { s with result := .err .malformedReply }) ∧
  (∀ (s : State) u reg arg inp, inp.getLast? = some 0x0A →
    (∀ i, ¬ MarkerAt (writeMarker u) (fold inp) i) →
    exec (.decodeWrite u reg arg inp) s = .next { s with result := .err .malformedReply })

/-- R165: an accepted reply with extra bytes after its CR LF is no longer accepted: it is malformed when the line still
ends in LF (a doubled terminator), and Timeout when it does not. -/
def Obligations.TrailingBytesRejected : Prop :=
  (∀ (s : State) u inp p (more : List Byte), exec (.decodeRead u inp) s = .next { s with result := .ok p } → more ≠ [] →
    exec (.decodeRead u (inp ++ more)) s =
      .next { s with result := .err (if more.getLast? = some 0x0A then .malformedReply else .timeout) }) ∧
  (∀ (s : State) u reg arg inp p (more : List Byte), exec (.decodeWrite u reg arg inp) s = .next { s with result := .ok p } → more ≠ [] →
    exec (.decodeWrite u reg arg (inp ++ more)) s =
      .next { s with result := .err (if more.getLast? = some 0x0A then .malformedReply else .timeout) })

/-- R242: a host that removes CR LF from a reply gets Timeout; one that removes only the CR gets MalformedReply. -/
def Obligations.StrippedTerminatorRejected : Prop :=
  (∀ (s : State) u inp p, exec (.decodeRead u inp) s = .next { s with result := .ok p } →
    exec (.decodeRead u (inp.take (inp.length - 2))) s = .next { s with result := .err .timeout } ∧
    exec (.decodeRead u (inp.eraseIdx (inp.length - 2))) s = .next { s with result := .err .malformedReply }) ∧
  (∀ (s : State) u reg arg inp p, exec (.decodeWrite u reg arg inp) s = .next { s with result := .ok p } →
    exec (.decodeWrite u reg arg (inp.take (inp.length - 2))) s = .next { s with result := .err .timeout } ∧
    exec (.decodeWrite u reg arg (inp.eraseIdx (inp.length - 2))) s = .next { s with result := .err .malformedReply })

/-! ## Readings and the host's conversion -/

/-- R169, R171: the reading of an accepted reply: tenths for byte count 4, the raw integer for byte count 2; between 0 and
6553.5 or 65535. -/
def Obligations.ReadingsOfMeasurements : Prop :=
  (∀ pv sp : Word, readings (.ok (.measurement 4 pv (some sp) .ten)) =
    some ((pv.toNat : Rat) / 10, some ((sp.toNat : Rat) / 10))) ∧
  (∀ pv : Word, readings (.ok (.measurement 2 pv none .one)) = some ((pv.toNat : Rat), none)) ∧
  (∀ raw : Word, 0 ≤ scale raw .ten ∧ scale raw .ten ≤ 65535 / 10 ∧ 0 ≤ scale raw .one ∧ scale raw .one ≤ 65535)

/-- R169 (with log entry 14, the layout of a binary64 number, PRESUMED): the binary64 reading of a nonzero raw value is a
normal number whose distance from `raw / div` is at most half a unit in its last place, its significand even on a tie. -/
def Obligations.BinaryReadingIsNearest : Prop :=
  ∀ (raw : Word) (d : Divisor), raw ≠ 0 → ∃ e m : Nat,
    1 ≤ e ∧ e ≤ 1075 ∧ 2 ^ 52 ≤ m ∧ m < 2 ^ 53 ∧ (scaleF64 raw d).toNat = e * 2 ^ 52 + (m - 2 ^ 52) ∧
    2 * m * divisorNat d ≤ 2 * raw.toNat * 2 ^ (1075 - e) + divisorNat d ∧
    2 * raw.toNat * 2 ^ (1075 - e) ≤ 2 * m * divisorNat d + divisorNat d ∧
    (2 * m * divisorNat d = 2 * raw.toNat * 2 ^ (1075 - e) + divisorNat d ∨
      2 * raw.toNat * 2 ^ (1075 - e) = 2 * m * divisorNat d + divisorNat d → m % 2 = 0)

/-- R31 (with log entries 14 and 15, binary64 arithmetic, PRESUMED): the magnitude is the product `t × 10` rounded to
binary64 and then to an integer, both half to even. An infinite or not-a-number temperature is a caller error, so is one
whose rounded product is out of range, and no command is issued; every other temperature gives its rounded product, not
clamped, to the request and to the decoding of its reply. -/
def Obligations.SetpointConversionRefusesOutOfRange : Prop :=
  (∀ t, f64Finite t = true ↔ t.toNat / 2 ^ 52 % 2048 ≠ 2047) ∧
  (∀ t, f64Finite t = true →
    ∃ q : Rat, RoundsTo53Bits (binary64Magnitude t * 10) q ∧ RoundsHalfEven q (setpointMagnitude t)) ∧
  (∀ t u line, f64Finite t = false → writeSetpointMoves u t line = none) ∧
  (∀ t u line, 65535 < setpointMagnitude t → writeSetpointMoves u t line = none) ∧
  (∀ t u line, t.msb = true → 0 < setpointMagnitude t → writeSetpointMoves u t line = none) ∧
  (∀ t raw, setpointRaw t = some raw → raw.toNat = setpointMagnitude t) ∧
  (∀ t, f64Finite t = true → setpointMagnitude t ≤ 65535 → (t.msb = false ∨ setpointMagnitude t = 0) →
    ∃ raw : Word, setpointRaw t = some raw ∧ raw.toNat = setpointMagnitude t ∧
      ∀ u line, writeSetpointMoves u t line =
        some [.issue (encode (.encodeWrite u 0x4701 raw)), .issue (encode (.decodeWrite u 0x4701 raw line))])

/-- R31, R169 (with log entries 14 and 15, PRESUMED): a setpoint read back as a binary64 reading converts to the same raw
value. -/
def Obligations.SetpointOfReadingIsRaw : Prop :=
  ∀ raw : Word, setpointRaw (scaleF64 raw .ten) = some raw
end

