-- ==== Sys2Proof/Laws/Assembler.lean ====
section
/-!
SUPPORT. What the assembler's shared operations can do: fitting a number to a port, and a word of a line.
-/
namespace Sys2Proof.Machine

/-- A number fits a port exactly as the value the port then holds. -/
theorem fitNumber_eq_some {w n : Nat} {b : BitVec w} : fitNumber w n = some b ↔ n = b.toNat := by
  unfold fitNumber
  constructor
  · intro h
    split at h
    · next hn => cases h; rw [BitVec.toNat_ofNat, Nat.mod_eq_of_lt hn]
    · cases h
  · rintro rfl
    simp [b.isLt]

@[simp] theorem fitNumber_toNat {w : Nat} (b : BitVec w) : fitNumber w b.toNat = some b := fitNumber_eq_some.2 rfl

/-- The letters, digits and underscores up to the end of a line are one word. -/
theorem lexLine_inWord : ∀ (cs rev : List Char), (∀ c ∈ cs, charKind c = .wordChar) →
    lexLine (.inWord rev) cs = some [.word (rev.reverse ++ cs)]
  | [], rev, _ => by simp [lexLine]
  | c :: cs, rev, h => by
    simp only [lexLine, lexOutside, h c (by simp)]
    rw [lexLine_inWord cs (c :: rev) fun d hd => h d (by simp [hd])]
    simp

end Sys2Proof.Machine
end

