-- ==== Sys2Proof/Laws/State.lean ====
section
/-!
SUPPORT. One lemma per field per update of the state.
-/
namespace Sys2Proof.Machine

@[simp] theorem setResult_result (r : Result) (s : State) : (setResult r s).result = r := rfl
@[simp] theorem setResult_moves (r : Result) (s : State) : (setResult r s).moves = s.moves := rfl
@[simp] theorem setResult_lastRead (r : Result) (s : State) : (setResult r s).lastRead = s.lastRead := rfl
@[simp] theorem setLastRead_result (v : Word) (s : State) : (setLastRead v s).result = s.result := rfl
@[simp] theorem setLastRead_moves (v : Word) (s : State) : (setLastRead v s).moves = s.moves := rfl
@[simp] theorem setLastRead_lastRead (v : Word) (s : State) : (setLastRead v s).lastRead = some v := rfl
@[simp] theorem withMoves_result (s : State) (ms : List HostMove) : (s.withMoves ms).result = s.result := rfl
@[simp] theorem withMoves_moves (s : State) (ms : List HostMove) : (s.withMoves ms).moves = ms := rfl
@[simp] theorem withMoves_lastRead (s : State) (ms : List HostMove) : (s.withMoves ms).lastRead = s.lastRead := rfl
@[simp] theorem reset_result : State.reset.result = .empty := rfl
@[simp] theorem reset_moves : State.reset.moves = [] := rfl
@[simp] theorem reset_lastRead : State.reset.lastRead = none := rfl

/-- The latch is one value: two results written over one state are equal exactly when the states are. -/
theorem setResult_inj {r r' : Result} {s : State} : setResult r s = setResult r' s ↔ r = r' :=
  ⟨fun h => congrArg State.result h, fun h => h ▸ rfl⟩

end Sys2Proof.Machine
end

