-- ==== Sys2Proof/Laws/Ops.lean ====
section
/-!
SUPPORT. What each shared operation can do, said once.
-/
namespace Sys2Proof.Machine

/-- The latch a command's outcome leaves. -/
def resultOf : Except Status Payload → Result
  | .ok p => .ok p
  | .error e => .err e

theorem complete_eq (p : Payload) (s : State) : complete p s = .next (setResult (.ok p) s) := rfl
theorem raise_eq (e : Status) (s : State) : raise e s = .next (setResult (.err e) s) := rfl

/-- A concluded command replaces the latch and nothing else. -/
theorem conclude_eq (x : Except Status Payload) (s : State) : conclude x s = .next (setResult (resultOf x) s) := by
  cases x <;> rfl

theorem takeIllegalCommand_eq (s : State) : takeIllegalCommand s = .next (setResult (.err .illegalCommand) s) := rfl
theorem applyReset_eq (s : State) : applyReset s = .next (setResult .empty s) := rfl

theorem readRegister_of_value {r : ResReg} {s : State} {v : Word} (h : readReg s.result r = some v) :
    readRegister r s = .next (setLastRead v s) := by
  simp [readRegister, h]

theorem readRegister_of_none {r : ResReg} {s : State} (h : readReg s.result r = none) :
    readRegister r s = .fault (.noValue r) := by
  simp [readRegister, h]

/-- A register read goes on only where the register has a value, and changes only what the host has read. -/
theorem readRegister_next {r : ResReg} {s t : State} (h : readRegister r s = .next t) :
    ∃ v, readReg s.result r = some v ∧ t = setLastRead v s := by
  unfold readRegister at h
  split at h
  · next v hv => exact ⟨v, hv, by cases h; rfl⟩
  · cases h

/-- Every LRC_CHECK outcome, as one concluded command. -/
theorem execLrcCheck_eq (inp : List Byte) (cc : Byte) (s : State) :
    execLrcCheck inp cc s = .next (setResult (if lrc inp = cc then .ok .checked else .err .checksumMismatch) s) := by
  unfold execLrcCheck
  split <;> rfl

/-- The outcome of each kind of decoding of the ports. -/
theorem issue_of_instr {p : Ports} {i : Instr} (h : Sys2Proof.decode p = .instr i) (s : State) : issue p s = exec i s := by
  simp [issue, h]

theorem issue_of_illegal {p : Ports} {c : Byte} (h : Sys2Proof.decode p = .illegalCommand c) (s : State) :
    issue p s = takeIllegalCommand s := by
  simp [issue, h]

theorem issue_of_long {p : Ports} (h : Sys2Proof.decode p = .inputTooLong) (s : State) :
    issue p s = .refused .inputTooLong := by
  simp [issue, h, refuseLongInput]

/-- What decoding says of the ports: presentable with an assigned code, presentable with an illegal one, or too long. -/
theorem decode_cases (p : Ports) :
    (∃ op, p.wf = true ∧ opcodeOf p.cmd = some op ∧ Sys2Proof.decode p = .instr (operandsOf p op)) ∨
    (p.wf = true ∧ opcodeOf p.cmd = none ∧ Sys2Proof.decode p = .illegalCommand p.cmd) ∨
    (p.wf = false ∧ Sys2Proof.decode p = .inputTooLong) := by
  unfold Sys2Proof.decode
  cases hw : p.wf with
  | false => simp
  | true => cases ho : opcodeOf p.cmd <;> simp

/-- Everything a step that goes on can do. -/
theorem step_cases {s t : State} (h : step s = .next t) :
    (s.moves = [] ∧ t = s) ∨
    (∃ rest, s.moves = .reset :: rest ∧ t = setResult .empty (s.withMoves rest)) ∨
    (∃ p rest, s.moves = .issue p :: rest ∧ issue p (s.withMoves rest) = .next t) ∨
    (∃ r rest v, s.moves = .read r :: rest ∧ readReg s.result r = some v ∧ t = setLastRead v (s.withMoves rest)) := by
  unfold step at h
  split at h
  · next hm => exact .inl ⟨hm, by cases h; rfl⟩
  · next m rest hm =>
    cases m with
    | reset => exact .inr (.inl ⟨rest, hm, by cases h; rfl⟩)
    | issue p => exact .inr (.inr (.inl ⟨p, rest, hm, h⟩))
    | read r =>
      obtain ⟨v, hv, rfl⟩ := readRegister_next h
      exact .inr (.inr (.inr ⟨r, rest, v, hm, hv, rfl⟩))

theorem step_of_no_move {s : State} (h : s.moves = []) : step s = .next s := by
  simp [step, h, waitForHost]

theorem step_of_move {s : State} {m : HostMove} {rest : List HostMove} (h : s.moves = m :: rest) :
    step s = makeMove m (s.withMoves rest) := by
  simp [step, h]

end Sys2Proof.Machine
end

