-- ==== Sys2Proof/Laws/PerInstr.lean ====
section
/-!
SUPPORT. Statements made of every command, one lemma per constructor.
-/
namespace Sys2Proof.Laws.CmdCode

/-- R71: over any ports, the encoding of the command drives the code that the table assigns to its mnemonic, and a
presentable command over presentable ports gives presentable ports. -/
def Statement (i : Instr) : Prop :=
  ∀ bg : Ports, opcodeOf (encodeOnto bg i).cmd = some i.opcode ∧
    (bg.wf = true → i.wf = true → (encodeOnto bg i).wf = true)

theorem encodeRead (u : Byte) (r a : Word) : Statement (.encodeRead u r a) := fun _ => ⟨rfl, fun h _ => h⟩
theorem encodeWrite (u : Byte) (r a : Word) : Statement (.encodeWrite u r a) := fun _ => ⟨rfl, fun h _ => h⟩
theorem decodeRead (u : Byte) (inp : List Byte) : Statement (.decodeRead u inp) := fun _ => ⟨rfl, fun _ h => h⟩
theorem decodeWrite (u : Byte) (r a : Word) (inp : List Byte) : Statement (.decodeWrite u r a inp) :=
  fun _ => ⟨rfl, fun _ h => h⟩
theorem lrcCompute (inp : List Byte) : Statement (.lrcCompute inp) := fun _ => ⟨rfl, fun _ h => h⟩
theorem lrcCheck (inp : List Byte) (cc : Byte) : Statement (.lrcCheck inp cc) := fun _ => ⟨rfl, fun _ h => h⟩
theorem hexEnc8 (b : Byte) : Statement (.hexEnc8 b) := fun _ => ⟨rfl, fun h _ => h⟩
theorem hexEnc16 (w : Word) : Statement (.hexEnc16 w) := fun _ => ⟨rfl, fun h _ => h⟩
theorem hexDec8 (inp : List Byte) : Statement (.hexDec8 inp) := fun _ => ⟨rfl, fun _ h => h⟩
theorem hexDec16 (inp : List Byte) : Statement (.hexDec16 inp) := fun _ => ⟨rfl, fun _ h => h⟩

end Sys2Proof.Laws.CmdCode
end

