-- ==== Sys2Proof/Laws/Scaling.lean ====
section
/-!
SUPPORT. The one rounding that the readings and the host's conversion share.
-/
namespace Sys2Proof.Machine

/-- Rounding over the naturals: within half the denominator, even on a tie. -/
theorem roundHalfEven_bounds (num den : Nat) (h : 0 < den) :
    2 * roundHalfEven num den * den ≤ 2 * num + den ∧ 2 * num ≤ 2 * roundHalfEven num den * den + den ∧
    (2 * roundHalfEven num den * den = 2 * num + den ∨ 2 * num = 2 * roundHalfEven num den * den + den → roundHalfEven num den % 2 = 0) := by
  have e := Nat.div_add_mod num den
  have l := Nat.mod_lt num h
  generalize num / den = q at *
  generalize hr : num % den = r at *
  unfold roundHalfEven
  rw [hr]
  have hq : num / den = q := by
    rw [← e, Nat.mul_add_div h, Nat.div_eq_of_lt l]; rfl
  rw [hq]
  have c1 : den * q = q * den := Nat.mul_comm ..
  split
  · refine ⟨by nlinarith, by nlinarith, fun h => ?_⟩
    exfalso; rcases h with h | h <;> nlinarith
  · split
    · refine ⟨by nlinarith, by nlinarith, fun h => ?_⟩
      exfalso; rcases h with h | h <;> nlinarith
    · have : 2 * r = den := by omega
      rcases Nat.mod_two_eq_zero_or_one q with hq2 | hq2 <;> rw [hq2]
      · exact ⟨by nlinarith, by nlinarith, fun _ => by omega⟩
      · exact ⟨by nlinarith, by nlinarith, fun _ => by omega⟩

/-- The rounding is to the nearest integer, ties to even. -/
theorem roundHalfEven_rounds (num den : Nat) (h : 0 < den) : RoundsHalfEven ((num : Rat) / den) (roundHalfEven num den) := by
  obtain ⟨h1, h2, h3⟩ := roundHalfEven_bounds num den h
  generalize roundHalfEven num den = r at *
  have hd : (0 : Rat) < den := by exact_mod_cast h
  have q1 : 2 * (r : Rat) * den ≤ 2 * num + den := by exact_mod_cast h1
  have q2 : 2 * (num : Rat) ≤ 2 * r * den + den := by exact_mod_cast h2
  have e : (num : Rat) / den - r = (num - r * den) / den := by field_simp
  unfold RoundsHalfEven
  rw [e, abs_div, abs_of_pos hd]
  constructor
  · rw [div_le_iff₀ hd, abs_le]; constructor <;> linarith
  · intro h; rw [div_eq_iff hd.ne'] at h
    apply h3
    rcases abs_choice ((num : Rat) - r * den) with hh | hh <;> rw [hh] at h
    · right; have : 2 * (num : Rat) = 2 * r * den + den := by linarith
      exact_mod_cast this
    · left; have : 2 * (r : Rat) * den = 2 * num + den := by linarith
      exact_mod_cast this

end Sys2Proof.Machine
end

