-- ==== Sys2Proof/Laws/Text.lean ====
section
/-!
SUPPORT. The small lemmas of the hex text, the fields of a line and the marker search.
-/
namespace Sys2Proof.Machine

@[simp] theorem outCap_eq : Config.outCap = 17 := rfl
@[simp] theorem hex2_length (b : Byte) : (hex2 b).length = 2 := rfl
@[simp] theorem hex4_length (w : Word) : (hex4 w).length = 4 := rfl
@[simp] theorem marker_length (u fc : Byte) : (marker u fc).length = 4 := rfl
@[simp] theorem fold_length (s : List Byte) : (fold s).length = s.length := List.length_map ..
@[simp] theorem fold_append (s t : List Byte) : fold (s ++ t) = fold s ++ fold t := List.map_append ..
@[simp] theorem fold_nil : fold [] = [] := rfl
theorem fold_take (s : List Byte) (k : Nat) : fold (s.take k) = (fold s).take k := (List.map_take ..).symm ▸ rfl
theorem fold_drop (s : List Byte) (k : Nat) : fold (s.drop k) = (fold s).drop k := (List.map_drop ..).symm ▸ rfl

theorem marker_read (u : Byte) : marker u fcRead = readMarker u := rfl
theorem marker_write (u : Byte) : marker u fcWrite = writeMarker u := rfl

/-- Reading back the digit of a value gives the value. -/
theorem digitval_hexdigit : ∀ v : BitVec 4, digitval (hexdigit v) = some v.toNat := by decide

/-- A hex digit's value is below 16, and its uppercase form is the digit of that value. -/
theorem digit_cases : ∀ c : Byte, digitval c = none ∨
    ∃ d : Fin 16, digitval c = some d.val ∧ foldByte c = hexdigit (BitVec.ofNat 4 d.val) := by
  set_option maxRecDepth 4000 in decide

theorem digitval_lt {c : Byte} {d : Nat} (h : digitval c = some d) : d < 16 := by
  rcases digit_cases c with h' | ⟨e, h', -⟩ <;> rw [h] at h' <;> simp at h'
  omega

theorem foldByte_of_digitval {c : Byte} {d : Nat} (h : digitval c = some d) : foldByte c = hexdigit (BitVec.ofNat 4 d) := by
  rcases digit_cases c with h' | ⟨e, h', hf⟩ <;> rw [h] at h' <;> simp at h'
  rw [hf, h']

theorem digitval_foldByte : ∀ c : Byte, digitval (foldByte c) = digitval c := by
  set_option maxRecDepth 4000 in decide

theorem foldByte_foldByte : ∀ c : Byte, foldByte (foldByte c) = foldByte c := by
  set_option maxRecDepth 4000 in decide

/-- Folding makes no terminator and loses none. -/
theorem foldByte_eq_LF : ∀ c : Byte, foldByte c = 0x0A ↔ c = 0x0A := by
  set_option maxRecDepth 4000 in decide

@[simp] theorem fold_fold (s : List Byte) : fold (fold s) = fold s := by
  simp [fold, foldByte_foldByte]

theorem lineIncomplete_false {inp : List Byte} : lineIncomplete inp = false ↔ inp.getLast? = some 0x0A := by
  simp [lineIncomplete, chLF]

theorem lineIncomplete_true {inp : List Byte} : lineIncomplete inp = true ↔ inp.getLast? ≠ some 0x0A := by
  simp [lineIncomplete, chLF]

/-- Line completeness may be asked of the folded line. -/
theorem getLast_fold (inp : List Byte) : (fold inp).getLast? = some 0x0A ↔ inp.getLast? = some 0x0A := by
  rw [fold, List.getLast?_map]
  cases inp.getLast? with
  | none => simp
  | some c => simpa using foldByte_eq_LF c

theorem hexval_two (a b : Byte) : hexval [a, b] = match digitval a, digitval b with
    | some x, some y => some (x * 16 + y)
    | _, _ => none := by
  simp only [hexval, hexvalFrom]
  cases digitval a <;> simp
  cases digitval b <;> simp

/-- The nibbles of a byte and of a word. -/
theorem hex2_of_nibbles {v x y : Nat} (hy : y < 16) (h : v = x * 16 + y) :
    hex2 (BitVec.ofNat 8 v) = [hexdigit (BitVec.ofNat 4 x), hexdigit (BitVec.ofNat 4 y)] := by
  subst h
  have h1 : (BitVec.ofNat 8 (x * 16 + y)).extractLsb' 4 4 = BitVec.ofNat 4 x := by
    apply BitVec.eq_of_toNat_eq; simp [Nat.shiftRight_eq_div_pow]; omega
  have h2 : (BitVec.ofNat 8 (x * 16 + y)).extractLsb' 0 4 = BitVec.ofNat 4 y := by
    apply BitVec.eq_of_toNat_eq; simp
  simp [hex2, h1, h2]

theorem hex4_of_nibbles {v x y z t : Nat} (hy : y < 16) (hz : z < 16) (ht : t < 16)
    (h : v = ((x * 16 + y) * 16 + z) * 16 + t) :
    hex4 (BitVec.ofNat 16 v) = [hexdigit (BitVec.ofNat 4 x), hexdigit (BitVec.ofNat 4 y),
      hexdigit (BitVec.ofNat 4 z), hexdigit (BitVec.ofNat 4 t)] := by
  subst h
  generalize hv : ((x * 16 + y) * 16 + z) * 16 + t = v
  have h1 : (BitVec.ofNat 16 v).extractLsb' 12 4 = BitVec.ofNat 4 x := by
    apply BitVec.eq_of_toNat_eq; simp [Nat.shiftRight_eq_div_pow]; omega
  have h2 : (BitVec.ofNat 16 v).extractLsb' 8 4 = BitVec.ofNat 4 y := by
    apply BitVec.eq_of_toNat_eq; simp [Nat.shiftRight_eq_div_pow]; omega
  have h3 : (BitVec.ofNat 16 v).extractLsb' 4 4 = BitVec.ofNat 4 z := by
    apply BitVec.eq_of_toNat_eq; simp [Nat.shiftRight_eq_div_pow]; omega
  have h4 : (BitVec.ofNat 16 v).extractLsb' 0 4 = BitVec.ofNat 4 t := by
    apply BitVec.eq_of_toNat_eq; simp; omega
  simp [hex4, h1, h2, h3, h4]

/-- The search finds the least index at which the marker stands. -/
theorem findMarker_some {m : List Byte} (hm : m.length = 4) : ∀ {u : List Byte} {p : Nat},
    findMarker m u = some p ↔ MarkerAt m u p ∧ ∀ i < p, ¬ MarkerAt m u i := by
  have key : ∀ (c : Byte) (u : List Byte), m.isPrefixOf (c :: u) = true ↔ MarkerAt m (c :: u) 0 := by
    intro c u
    rw [List.isPrefixOf_iff_prefix, List.prefix_iff_eq_take, hm]
    constructor
    · intro h
      refine ⟨by simpa using h.symm, ?_⟩
      have := congrArg List.length h
      simp [hm] at this ⊢; omega
    · rintro ⟨h, -⟩
      simpa using h.symm
  have shift : ∀ (c : Byte) (u : List Byte) (i : Nat), MarkerAt m (c :: u) (i + 1) ↔ MarkerAt m u i := by
    intro c u i
    simp only [MarkerAt, List.drop_succ_cons, List.length_cons]
    constructor <;> rintro ⟨h, h'⟩ <;> exact ⟨h, by omega⟩
  intro u
  induction u with
  | nil => intro p; simp [findMarker, MarkerAt]
  | cons c u ih =>
    intro p
    unfold findMarker
    split
    · next h =>
      rw [key] at h
      constructor
      · rintro ⟨⟩; exact ⟨h, fun i hi => absurd hi (by omega)⟩
      · rintro ⟨-, h'⟩
        cases p with
        | zero => rfl
        | succ p => exact absurd h (h' 0 (by omega))
    · next h =>
      rw [key] at h
      cases p with
      | zero => simp [h]
      | succ p =>
        simp only [Option.map_eq_some_iff, Nat.add_right_cancel_iff, exists_eq_right, ih, shift]
        refine and_congr_right fun _ => ⟨fun hi i hlt => ?_, fun hi i hlt => (shift ..).not.1 (hi (i + 1) (by omega))⟩
        cases i with
        | zero => exact h
        | succ i => exact (shift ..).not.2 (hi i (by omega))

/-- The search fails exactly where the marker stands nowhere. -/
theorem findMarker_none {m : List Byte} (hm : m.length = 4) {u : List Byte} :
    findMarker m u = none ↔ ∀ i, ¬ MarkerAt m u i := by
  constructor
  · intro h i hi
    have : ∃ i, MarkerAt m u i := ⟨i, hi⟩
    classical
    have hp := (findMarker_some hm (u := u) (p := Nat.find this)).2 ⟨Nat.find_spec this, fun i hi => Nat.find_min this hi⟩
    rw [h] at hp; cases hp
  · intro h
    cases hp : findMarker m u with
    | none => rfl
    | some p => exact absurd ((findMarker_some hm).1 hp).1 (h p)

/-- A field may be read from the marker on. -/
theorem field_drop (u : List Byte) (p i k : Nat) (h : p ≤ u.length) : field u (p + i) k = field (u.drop p) i k := by
  have : p + i + k ≤ u.length ↔ i + k ≤ u.length - p := by omega
  simp [field, this, List.drop_drop]

/-- In a folded line, a 2-digit field is the uppercase text of its value. -/
theorem field8_fold {inp : List Byte} {i : Nat} {v : Byte} :
    field8 (fold inp) i = some v ↔ ((fold inp).drop i).take 2 = hex2 v := by
  unfold field8 field
  generalize hw : ((fold inp).drop i).take 2 = w
  have hf : fold w = w := by rw [← hw, ← fold_drop, ← fold_take, fold_fold]
  have hl : w.length = min 2 (inp.length - i) := by rw [← hw]; simp
  constructor
  · intro h
    split at h
    · next hlen =>
      have h2 : w.length = 2 := by simp at hlen; omega
      match w, h2 with
      | [a, b], _ =>
        rw [hexval_two] at h
        cases ha : digitval a with
        | none => simp [ha] at h
        | some x =>
          cases hb : digitval b with
          | none => simp [ha, hb] at h
          | some y =>
            simp only [ha, hb, Option.map_some, Option.some.injEq] at h
            rw [← h, hex2_of_nibbles (digitval_lt hb) rfl, ← foldByte_of_digitval ha,
              ← foldByte_of_digitval hb]
            simpa [fold] using hf.symm
    · simp at h
  · intro h
    have h2 : w.length = 2 := by rw [h]; rfl
    have hlen : i + 2 ≤ (fold inp).length := by simp; omega
    rw [if_pos hlen, h, hex2, hexval_two, digitval_hexdigit, digitval_hexdigit]
    simp only [Option.map_some, Option.some.injEq]
    apply BitVec.eq_of_toNat_eq
    have := v.isLt
    simp [Nat.shiftRight_eq_div_pow]; omega

/-- In a folded line, a 4-digit field is the uppercase text of its value. -/
theorem field16_fold {inp : List Byte} {i : Nat} {v : Word} :
    field16 (fold inp) i = some v ↔ ((fold inp).drop i).take 4 = hex4 v := by
  unfold field16 field
  generalize hw : ((fold inp).drop i).take 4 = w
  have hf : fold w = w := by rw [← hw, ← fold_drop, ← fold_take, fold_fold]
  have hl : w.length = min 4 (inp.length - i) := by rw [← hw]; simp
  constructor
  · intro h
    split at h
    · next hlen =>
      have h4 : w.length = 4 := by simp at hlen; omega
      match w, h4 with
      | [a, b, c, d], _ =>
        simp only [hexval, hexvalFrom] at h
        cases ha : digitval a with
        | none => simp [ha] at h
        | some x =>
          cases hb : digitval b with
          | none => simp [ha, hb] at h
          | some y =>
            cases hc : digitval c with
            | none => simp [ha, hb, hc] at h
            | some z =>
              cases hd : digitval d with
              | none => simp [ha, hb, hc, hd] at h
              | some t =>
                simp only [ha, hb, hc, hd, Option.map_some, Option.some.injEq] at h
                rw [← h, hex4_of_nibbles (digitval_lt hb) (digitval_lt hc) (digitval_lt hd)
                  (by omega : _ = ((x * 16 + y) * 16 + z) * 16 + t), ← foldByte_of_digitval ha,
                  ← foldByte_of_digitval hb, ← foldByte_of_digitval hc, ← foldByte_of_digitval hd]
                simpa [fold] using hf.symm
    · simp at h
  · intro h
    have h4 : w.length = 4 := by rw [h]; rfl
    have hlen : i + 4 ≤ (fold inp).length := by simp; omega
    rw [if_pos hlen, h]
    simp only [hex4, hexval, hexvalFrom, digitval_hexdigit, Option.map_some, Option.some.injEq]
    apply BitVec.eq_of_toNat_eq
    have := v.isLt
    simp [Nat.shiftRight_eq_div_pow]; omega

end Sys2Proof.Machine
end

