-- ==== Sys2Proof/Tests/Slice0.lean ====
section
/-!
SUPPORT. The model's own tests: words and vectors of spec/95_test_vectors.md, and a witness for every statement that has
hypotheses.
-/
open Sys2Proof Sys2Proof.Machine

namespace Sys2Proof.Tests

/-- ASCII text as bytes (R10). -/
def ascii (s : String) : List Byte := s.toList.map (fun c => BitVec.ofNat 8 c.toNat)

/-- RESULT after an outcome. -/
def resultAfter : Host.Outcome State Fault Refusal → Option Result
  | .next s => some s.result
  | .fault _ => none
  | .refused _ => none

/-- RESULT after a command from reset. -/
def run (i : Instr) : Option Result := resultAfter (exec i State.reset)

/-- The machine with some moves pending. -/
def withPending (ms : List HostMove) : State := State.reset.withMoves ms

/-- Ports with a code and operands. -/
def ports (cmd unit : Byte) (reg arg : Word) (inp : List Byte) : Ports :=
  { cmd := cmd, unit := unit, reg := reg, arg := arg, inp := inp }

/-! ## WellFormed (R8) -/

/-- An input one byte longer than IN_CAP. -/
def tooLong : List Byte := List.replicate (Config.inCap + 1) 0

theorem tooLong_unfit : fitsIn tooLong = false := by simp [fitsIn, tooLong]

theorem test_illformed_decodeRead : (Instr.decodeRead 3 tooLong).wf = false := tooLong_unfit
theorem test_illformed_decodeWrite : (Instr.decodeWrite 3 0 0 tooLong).wf = false := tooLong_unfit
theorem test_illformed_lrcCompute : (Instr.lrcCompute tooLong).wf = false := tooLong_unfit
theorem test_illformed_lrcCheck : (Instr.lrcCheck tooLong 0).wf = false := tooLong_unfit
theorem test_illformed_hexDec8 : (Instr.hexDec8 tooLong).wf = false := tooLong_unfit
theorem test_illformed_hexDec16 : (Instr.hexDec16 tooLong).wf = false := tooLong_unfit
theorem test_wellformed_longest_reply : (Instr.decodeRead 3 (List.replicate 19 0)).wf = true := by decide

/-! ## Decoding (R71, R72, R74): the words of P1-P4 written out from the table -/

theorem test_decode_encodeRead : Sys2Proof.decode (ports 0b00000001 0x03 0x4700 0x0002 []) = .instr (.encodeRead 3 0x4700 2) := by
  decide
theorem test_decode_encodeWrite : Sys2Proof.decode (ports 0b00000010 0x03 0x4701 0x00FF []) = .instr (.encodeWrite 3 0x4701 0xFF) := by
  decide
theorem test_decode_decodeRead : Sys2Proof.decode (ports 0b00000011 0x03 0xAAAA 0xBBBB [0x0A]) = .instr (.decodeRead 3 [0x0A]) := by
  decide
theorem test_decode_decodeWrite :
    Sys2Proof.decode (ports 0b00000100 0x03 0x4701 0x00FF [0x0A]) = .instr (.decodeWrite 3 0x4701 0xFF [0x0A]) := by
  decide
theorem test_decode_lrcCompute : Sys2Proof.decode (ports 0b00010000 0x77 0 0 [0x80, 0x80]) = .instr (.lrcCompute [0x80, 0x80]) := by
  decide
theorem test_decode_lrcCheck : Sys2Proof.decode (ports 0b00010001 0 0 0xFF15 [0x01]) = .instr (.lrcCheck [0x01] 0x15) := by decide
theorem test_decode_hexEnc8 : Sys2Proof.decode (ports 0b00100000 0 0 0x1215 []) = .instr (.hexEnc8 0x15) := by decide
theorem test_decode_hexEnc16 : Sys2Proof.decode (ports 0b00100001 0 0 0xABCD []) = .instr (.hexEnc16 0xABCD) := by decide
theorem test_decode_hexDec8 : Sys2Proof.decode (ports 0b00100010 0 0 0 [0x46, 0x46]) = .instr (.hexDec8 [0x46, 0x46]) := by decide
theorem test_decode_hexDec16 : Sys2Proof.decode (ports 0b00100011 0 0 0 [0x30]) = .instr (.hexDec16 [0x30]) := by decide
/-- L2.6. -/
theorem test_decode_illegal :
    [0x00, 0x05, 0x06, 0x12, 0x24, 0xFF].map (fun c => resultAfter (issue (ports c 1 2 3 []) State.reset)) =
      List.replicate 6 (some (.err .illegalCommand)) := by decide
theorem test_encode_keeps_unlisted :
    encodeOnto (ports 9 8 7 0xAB00 [1]) (.hexEnc8 0x15) = ports 0x20 8 7 0xAB15 [1] := by decide

/-! ## The commands (L2.1-L2.5, E1-E10) -/

theorem test_hexEnc8 : run (.hexEnc8 0x4B) = some (.ok (.text (ascii "4B"))) := by decide
theorem test_hexEnc8_upper_padded : run (.hexEnc8 0x0A) = some (.ok (.text (ascii "0A"))) := by decide
theorem test_hexEnc16 : run (.hexEnc16 0xABCD) = some (.ok (.text (ascii "ABCD"))) := by decide
theorem test_hexEnc16_padded : run (.hexEnc16 0x000F) = some (.ok (.text (ascii "000F"))) := by decide
theorem test_hexDec8_mixed_case : run (.hexDec8 (ascii "fF")) = some (.ok (.byte 0xFF)) := by decide
theorem test_hexDec8_malformed :
    ["G0", "0x", " F", "", "ABC", "F"].map (fun t => run (.hexDec8 (ascii t))) =
      List.replicate 6 (some (.err .malformedReply)) := by decide
theorem test_hexDec16 : run (.hexDec16 (ascii "04b0")) = some (.ok (.word 0x04B0)) := by decide
theorem test_hexDec16_malformed :
    ["4B0", "04B00", "12 4", "-001"].map (fun t => run (.hexDec16 (ascii t))) =
      List.replicate 4 (some (.err .malformedReply)) := by decide
theorem test_lrcCompute : run (.lrcCompute [0x03, 0x06, 0x47, 0x01, 0x00, 0xFF]) = some (.ok (.byte 0xB0)) := by decide
theorem test_lrcCompute_zero : [[], [0x80, 0x80], [0xFF, 0x01]].map (fun b => run (.lrcCompute b)) =
    List.replicate 3 (some (.ok (.byte 0x00))) := by decide
theorem test_lrcCheck : run (.lrcCheck [0x03, 0x03, 0x47, 0x00, 0x00, 0x02] 0xB1) = some (.ok .checked) := by decide
theorem test_lrcCheck_mismatch :
    run (.lrcCheck [0x03, 0x03, 0x47, 0x00, 0x00, 0x02] 0xB2) = some (.err .checksumMismatch) := by decide
theorem test_encodeRead : run (.encodeRead 0x0A 0x4700 2) = some (.ok (.text (ascii ":0A0347000002AA\r\n"))) := by decide
theorem test_encodeRead_top : run (.encodeRead 0xFF 0xFFFF 0xFFFF) = some (.ok (.text (ascii ":FF03FFFFFFFF02\r\n"))) := by
  decide
theorem test_encodeWrite : run (.encodeWrite 0xAB 0xCDEF 0x1234) = some (.ok (.text (ascii ":AB06CDEF12344D\r\n"))) := by
  decide
theorem test_encodeWrite_zero : run (.encodeWrite 0 0 0) = some (.ok (.text (ascii ":000600000000FA\r\n"))) := by decide
theorem test_decodeRead_ok :
    [":03030404B0012C15\r\n", ":03030404b0012c15\r\n", "03030404B0012C15\r\n"].map (fun t => run (.decodeRead 3 (ascii t))) =
      List.replicate 3 (some (.ok (.measurement 4 0x04B0 (some 0x012C) .ten))) := by decide
theorem test_decodeRead_errors :
    [":0303020001F7\r\n", ":030304FFFFFFFF00\r\n", ":03030404B0012C15", ":03030404B0012C15\n", ":03030304B0012C15\r\n",
      "0303:03030404B0012C15\r\n", ":030347000002B1\r\n"].map (fun t => run (.decodeRead 3 (ascii t))) =
    [some (.ok (.measurement 2 1 none .one)), some (.err .checksumMismatch), some (.err .timeout),
      some (.err .malformedReply), some (.err .malformedReply), some (.err .malformedReply), some (.err .malformedReply)] := by
  decide
theorem test_decodeWrite_ok : run (.decodeWrite 3 0x4701 0xFF (ascii ":0306470100fFb0\r\n")) = some (.ok .writeAck) := by decide
theorem test_decodeWrite_errors :
    [":0306470100FEB1\r\n", ":0306470100FEB0\r\n", ":0306470100\r\n", ":0306470100FFB0"].map
      (fun t => run (.decodeWrite 3 0x4701 0xFF (ascii t))) =
    [some (.err .writeRejected), some (.err .checksumMismatch), some (.err .malformedReply), some (.err .timeout)] := by
  decide

/-! ## The view, readings, the host's conversion, the assembler -/

/-- L2.7. -/
theorem test_view_no_setpoint : readRegister .sp { State.reset with result := .ok (.measurement 2 1 none .one) } = .fault (.noValue .sp) :=
  rfl
theorem test_view_status : readReg (.err .writeRejected) .status = some 3 := by decide
/-- E1: 1200/10 = 120.0. -/
theorem test_scale : scaleF64 0x04B0 .ten = 0x405E000000000000 := by decide
/-- R31 and D28: 25.5 gives 255; 0.25 gives 2 (half to even). -/
theorem test_setpoint : setpointRaw 0x4039800000000000 = some 255 ∧ setpointRaw 0x3FD0000000000000 = some 2 := by decide
/-- C6: 6553.6 and infinity are refused. -/
theorem test_setpoint_refused : setpointRaw 0x40B999999999999A = none ∧ setpointRaw 0x7FF0000000000000 = none := by decide
/-- P1's encoding, and P2's refusal of an out-of-range temperature (infinity). -/
theorem test_session :
    readMeasurementMoves 3 [0x0A] = [.issue (ports 0x01 3 0x4700 2 []), .issue (ports 0x03 3 0 0 [0x0A])] ∧
    writeSetpointMoves 3 0x7FF0000000000000 [] = none := by decide
/-- P1 and P3. -/
theorem test_assemble :
    assembleLine "POLL_REQ    3      ; unit 3" = .command (.encodeRead 3 0x4700 2) ∧
    assembleLine "LRC_CHECK [0x03, 6], 0x15" = .command (.lrcCheck [3, 6] 0x15) ∧
    assembleLine "HEX_DEC8 \"4b\"" = .command (.hexDec8 [0x34, 0x62]) := by decide
theorem test_assemble_refused :
    assembleLine "HEX_ENC16 65536" = .refused ∧ assembleLine "HEX_ENC16 1, 2" = .refused ∧ assembleLine "NOP" = .refused ∧
    assembleLine " ; comment" = .blank := by decide
/-- An opcode-table word is what the next step runs. -/
theorem test_fetch : resultAfter (step (State.reset.withFetchWord 8 0x22)) = some (.err .malformedReply) := by decide

/-! ## Witnesses: for every statement with hypotheses, a state and operands that meet them, clause by clause -/

/-- The canonical replies of E3, E2 and E4. -/
def reply4 : List Byte := ascii ":03030404B0012C15\r\n"
def reply2 : List Byte := ascii ":0303020001F7\r\n"
def replyW : List Byte := ascii ":0306470100FFB0\r\n"

/-- An issue of HEX_ENC8 0x4B, and what it leaves. -/
def enc8Ports : Ports := ports 0x20 0 0 0x4B []
def afterEnc8 (ms : List HostMove) : State := { result := .ok (.text [0x34, 0x42]), moves := ms, lastRead := none }

theorem witness_ResetInputEmptiesLatch :
    (withPending [.reset]).moves = .reset :: [] ∧
    step (withPending [.reset, .issue enc8Ports]) = .next (withPending [.issue enc8Ports]) ∧
    step (withPending [.issue enc8Ports, .reset]) = .next (afterEnc8 [.reset]) := ⟨rfl, rfl, rfl⟩
theorem witness_StepKeepsLatchLegal :
    (withPending [.issue enc8Ports]).Inv ∧ step (withPending [.issue enc8Ports]) = .next (afterEnc8 []) := ⟨rfl, rfl⟩
theorem witness_StepRunsDecodedCommand : (withPending [.issue enc8Ports]).moves = .issue enc8Ports :: [] ∧
    Sys2Proof.decode enc8Ports = .instr (.hexEnc8 0x4B) := ⟨rfl, by decide⟩
theorem witness_IllegalCommandRaises :
    (∀ c ∈ ([0x00, 0x05, 0x0F, 0x12, 0x1F, 0x24, 0xFF] : List Byte), (ports c 0 0 0 []).wf = true ∧ c ∉ assignedCodes) ∧
    (∀ c ∈ ([0x01, 0x04, 0x10, 0x11, 0x20, 0x23] : List Byte), (ports c 0 0 0 []).wf = true ∧ c ∈ assignedCodes) := by decide
theorem witness_InputCapacity : Config.inCap < (ports 0x22 0 0 0 tooLong).inp.length ∧
    (ports 0x22 0 0 0 (List.replicate Config.inCap 0)).inp.length ≤ Config.inCap := by simp [ports, tooLong]
theorem witness_WaitsForFirstMove : State.reset.moves = [] := rfl
theorem witness_RegisterReadReturnsOrFaults :
    readReg State.reset.result .valid = some 0 ∧ readReg State.reset.result .status = none ∧
    ResReg.kind ≠ .valid ∧ ResReg.kind ≠ .status := by decide
theorem witness_RegisterViewDeterminesResult :
    resultLegal .empty = true ∧ resultLegal (.err .timeout) = true ∧
    resultLegal (.ok (.measurement 4 0xFFFF (some 0) .ten)) = true ∧
    resultLegal (.ok (.text (ascii ":FF03FFFFFFFF02\r\n"))) = true := by decide
theorem witness_RegisterViewReservedRefused :
    (∃ rd : ResReg → Option Word, rd .valid = some 1 ∧ rd .status = some 6 ∧ 6 ≤ (6 : Word).toNat) ∧
    (∃ rd : ResReg → Option Word, rd .valid = some 1 ∧ rd .status = some 0 ∧ rd .kind = some 6 ∧ 6 ≤ (6 : Word).toNat) :=
  ⟨⟨fun r => if r = .valid then some 1 else some 6, by decide⟩,
    ⟨fun r => if r = .valid then some 1 else if r = .status then some 0 else some 6, by decide⟩⟩
theorem witness_DecodeEncodeAgree : idlePorts.wf = true ∧ (Instr.decodeRead 3 reply4).wf = true := by decide
theorem witness_EncodingRestoresDecodedPorts : Sys2Proof.decode (ports 0x11 0 0 0xFF15 []) = .instr (.lrcCheck [] 0x15) := by decide
theorem witness_UnreadPortsWithoutEffect : ∃ p q : Ports, p.wf = true ∧ q.wf = true ∧ p ≠ q ∧ SamePortsRead p q :=
  ⟨ports 0x20 1 2 0x0115 [], ports 0x20 3 4 0xFF15 [0], by decide, by decide, by decide, by simp [SamePortsRead, ports]⟩
theorem witness_NextResultIndependentOfHistory :
    step (withPending [.issue enc8Ports]) = .next (afterEnc8 []) ∧
    step { withPending [.issue enc8Ports] with result := .err .timeout } = .next (afterEnc8 []) := ⟨rfl, rfl⟩
theorem witness_HexEnc8Result : enc8Ports.wf = true ∧ enc8Ports.cmd = 0x20 := by decide
theorem witness_HexEnc16Result : (ports 0x21 0 0 0xFFFF []).wf = true ∧ (ports 0x21 0 0 0xFFFF []).cmd = 0x21 := by decide
theorem witness_HexDec8Result :
    (ports 0x22 0 0 0 []).wf = true ∧ (ports 0x22 0 0 0 []).cmd = 0x22 ∧
    digitval 0x66 = some 15 ∧ digitval 0x46 = some 15 ∧ (ascii "F").length ≠ 2 ∧ (∃ c ∈ ascii "G0", digitval c = none) := by decide
theorem witness_HexDec16Result :
    (ports 0x23 0 0 0 []).wf = true ∧ (ports 0x23 0 0 0 []).cmd = 0x23 ∧ digitval 0x30 = some 0 ∧ digitval 0x61 = some 10 ∧
    (ascii "4B0").length ≠ 4 ∧ (∃ c ∈ ascii "12 4", digitval c = none) := by decide
theorem witness_HexRoundTripLaws : (ascii "fF").length = 2 ∧ hexval (ascii "fF") = some 255 := by decide
theorem witness_LrcComputeResult : (ports 0x10 0 0 0 []).wf = true ∧ (ports 0x10 0 0 0 []).cmd = 0x10 := by decide
theorem witness_LrcCheckResult :
    (ports 0x11 0 0 0 []).wf = true ∧ (ports 0x11 0 0 0 []).cmd = 0x11 ∧
    (0xFF : Byte).toNat = (256 - (([1] : List Byte).map BitVec.toNat).sum % 256) % 256 ∧
    (0x01 : Byte).toNat ≠ (256 - (([] : List Byte).map BitVec.toNat).sum % 256) % 256 := by decide
theorem witness_LrcZeroSum : ((([0x80, 0x80] : List Byte).map BitVec.toNat).sum + (0 : Byte).toNat) % 256 = 0 := by decide
/-- `lrc` of [0x01] is 0xFF, text "FF"; "EF", "FE" replace one digit; "fF", "Ff" change its case. -/
theorem witness_LrcDetection :
    (0 : Byte) ≠ 255 ∧ (0xFE : Byte) ≠ lrc [1] ∧ hexval (ascii "FF") = some (lrc [1]).toNat ∧
    digitval 0x45 ≠ digitval 0x46 ∧ hexval (ascii "EF") = some 0xEF ∧ hexval (ascii "FE") = some 0xFE ∧
    digitval 0x66 = digitval 0x46 ∧ ([1, 2] : List Byte).Perm [2, 1] ∧
    ((0xFF : Byte).toNat + (0x01 : Byte).toNat) % 256 = ((0x80 : Byte).toNat + (0x80 : Byte).toNat) % 256 := by decide
theorem witness_EncodeReadResult : (ports 0x01 0 0 0 []).wf = true ∧ (ports 0x01 0 0 0 []).cmd = 0x01 := by decide
theorem witness_EncodeWriteResult : (ports 0x02 0 0 0 []).wf = true ∧ (ports 0x02 0 0 0 []).cmd = 0x02 := by decide
theorem witness_ProducedFramesAreRawFrames : exec (.encodeWrite 0 0 0) State.reset =
    .next { State.reset with result := .ok (.text (ascii ":000600000000FA\r\n")) } := by rfl
theorem witness_EncoderInjective :
    exec (.encodeRead 3 0x4700 2) State.reset = exec (.encodeRead 3 0x4700 2) State.reset ∧
    exec (.encodeWrite 3 0x4701 0xFF) State.reset = exec (.encodeWrite 3 0x4701 0xFF) State.reset := ⟨rfl, rfl⟩
theorem witness_OutputLengths : exec (.hexEnc8 0x4B) State.reset = .next (afterEnc8 []) ∧
    (afterEnc8 []).result = .ok (.text [0x34, 0x42]) ∧
    run (.hexEnc16 0) = some (.ok (.text (ascii "0000"))) ∧
    run (.encodeRead 3 0x4700 2) = some (.ok (.text (ascii ":030347000002B1\r\n"))) :=
  ⟨rfl, rfl, by decide, by decide⟩
/-- The three accepted replies, as next states. -/
theorem witness_accepted :
    exec (.decodeRead 3 reply4) State.reset =
      .next { State.reset with result := .ok (.measurement 4 0x04B0 (some 0x012C) .ten) } ∧
    exec (.decodeRead 3 reply2) State.reset = .next { State.reset with result := .ok (.measurement 2 1 none .one) } ∧
    exec (.decodeWrite 3 0x4701 0xFF replyW) State.reset = .next { State.reset with result := .ok .writeAck } :=
  ⟨rfl, rfl, rfl⟩
/-- Both digits of the field, by `witness_accepted`: index 15 (`1`) and 16 (`5`) of the 19 bytes, 13 and 14 of the 17. -/
theorem witness_TamperedChecksumDetected :
    15 + 4 = reply4.length ∧ 16 + 3 = reply4.length ∧ digitval 0x30 ≠ none ∧
    digitval 0x30 ≠ (reply4[15]?).bind digitval ∧ digitval 0x46 ≠ (reply4[16]?).bind digitval ∧
    13 + 4 = replyW.length ∧ 14 + 3 = replyW.length ∧
    digitval 0x30 ≠ (replyW[13]?).bind digitval ∧ digitval 0x46 ≠ (replyW[14]?).bind digitval := by decide
theorem witness_DecodingIgnoresCase : fold (ascii ":0306470100fFb0\r\n") = fold replyW := by decide
theorem noMarker_of_find {l : List Byte} {fc : Byte} (h : findMarker (marker 3 fc) l = none) (i : Nat) :
    ¬ MarkerAt (marker 3 fc) l i :=
  (findMarker_none rfl).1 h i
theorem witness_LeadingNoiseSkipped :
    reply4 ≠ [] ∧ (∀ i < (ascii "xx").length, ¬ MarkerAt (readMarker 3) (fold (ascii "xx" ++ reply4)) i) ∧
    replyW ≠ [] ∧ (∀ i < (ascii "0").length, ¬ MarkerAt (writeMarker 3) (fold (ascii "0" ++ replyW)) i) := by
  unfold MarkerAt; decide
theorem witness_MissingMarkerMalformed :
    (ascii ":0383020001\r\n").getLast? = some 0x0A ∧
    (∀ i, ¬ MarkerAt (readMarker 3) (fold (ascii ":0383020001\r\n")) i) ∧
    (ascii ":0386030000\r\n").getLast? = some 0x0A ∧
    (∀ i, ¬ MarkerAt (writeMarker 3) (fold (ascii ":0386030000\r\n")) i) :=
  ⟨by decide, noMarker_of_find (fc := fcRead) (by decide), by decide, noMarker_of_find (fc := fcWrite) (by decide)⟩
/-- With `witness_accepted`: more bytes that end in LF, and that do not. -/
theorem witness_TrailingBytesRejected :
    ascii "\r\n" ≠ [] ∧ (ascii "\r\n").getLast? = some 0x0A ∧ ascii "X" ≠ [] ∧ (ascii "X").getLast? ≠ some 0x0A := by decide
theorem witness_StrippedTerminatorRejected :
    run (.decodeRead 3 reply4) = some (.ok (.measurement 4 0x04B0 (some 0x012C) .ten)) ∧
    run (.decodeWrite 3 0x4701 0xFF replyW) = some (.ok .writeAck) := by decide
theorem witness_BinaryReadingIsNearest : (0x0001 : Word) ≠ 0 ∧ (0xFFFF : Word) ≠ 0 := by decide
/-- Infinity; 6553.6; minus 25.5; 25.5; the ends of what is converted: 6553.5, 0 and minus 0. -/
theorem witness_SetpointConversionRefusesOutOfRange :
    f64Finite 0x7FF0000000000000 = false ∧ 65535 < setpointMagnitude 0x40B999999999999A ∧
    (0xC039800000000000 : BitVec 64).msb = true ∧ 0 < setpointMagnitude 0xC039800000000000 ∧
    setpointRaw 0x4039800000000000 = some 255 ∧
    f64Finite 0x40B9998000000000 = true ∧ setpointMagnitude 0x40B9998000000000 = 65535 ∧
    (0x40B9998000000000 : BitVec 64).msb = false ∧
    f64Finite 0 = true ∧ f64Finite 0x8000000000000000 = true := by decide
theorem witness_setpointMagnitude_zero : setpointMagnitude 0 = 0 ∧ setpointMagnitude 0x8000000000000000 = 0 := by
  decide +kernel
/-- The first value too wide for each width, built and from a line. -/
theorem witness_AssemblerNeverTruncates :
    fitNumber 8 255 = some 255 ∧ fitNumber 8 256 = none ∧
    buildCommand (.command .lrcCheck) [.bytes [], .num 255] = some (.lrcCheck [] 255) ∧
    SomeNumberTooWide (.command .lrcCheck) [.bytes [], .num 256] ∧ SomeNumberTooWide .setpointReq [.num 3, .num 65536] ∧
    lexLine .between "SETPOINT_REQ 3, 0x10000".toList = some [.word "SETPOINT_REQ".toList, .word ['3'], .comma, .word "0x10000".toList] ∧
    mnemonicTable.lookup "SETPOINT_REQ" = some .setpointReq ∧
    parseOperands .first [.word ['3'], .comma, .word "0x10000".toList] = some [.num 3, .num 65536] :=
  ⟨by decide, by decide, by decide, ⟨1, 8, 256, by decide⟩, ⟨1, 16, 65536, by decide⟩, by decide, by decide, by decide⟩
/-- A byte list at the end of its range: 255 spells a byte, 256 refuses the line. -/
theorem witness_AssemblerLinesExactly :
    assembleLine "LRC_COMPUTE [0, 0xFF]" = .command (.lrcCompute [0, 0xFF]) ∧
    assembleLine "LRC_COMPUTE [0, 0x100]" = .refused ∧ assembleLine "" = .blank := by decide
/-- Digits of both bases, and the last value that fits. -/
theorem witness_AssemblerReadsNumbersExactly :
    ([6, 5, 5, 3, 5] : List Nat) ≠ [] ∧ (∀ d ∈ [6, 5, 5, 3, 5], d < 10) ∧ digitsValue 10 [6, 5, 5, 3, 5] = 65535 ∧
    (∀ d ∈ [15, 15, 15, 15], d < 16) ∧ digitsValue 16 [15, 15, 15, 15] = 65535 := by decide

end Sys2Proof.Tests
end

section
/-!
The input capacity (R8): which inputs can be presented, and what the issue of a presentable input does.
-/
namespace Sys2Proof.Machine

theorem wf_iff_length_le {p : Ports} : p.wf = true ↔ p.inp.length ≤ Config.inCap := by
  simp [Ports.wf, fitsIn]

theorem decode_of_long {p : Ports} (h : Config.inCap < p.inp.length) : Sys2Proof.decode p = .inputTooLong := by
  have hwf : ¬ p.wf = true := fun hw => Nat.not_le_of_lt h (wf_iff_length_le.1 hw)
  simp [Sys2Proof.decode, hwf]

/-- R27: a command writes one latch, fixed by the command alone, whatever the state, and changes nothing else. -/
theorem exec_eq_setResult (i : Instr) : ∃ r, ∀ s, exec i s = .next (setResult r s) := by
  cases i with
  | encodeRead _ _ _ => exact ⟨_, complete_eq _⟩
  | encodeWrite _ _ _ => exact ⟨_, complete_eq _⟩
  | decodeRead _ _ => exact ⟨_, conclude_eq _⟩
  | decodeWrite _ _ _ _ => exact ⟨_, conclude_eq _⟩
  | lrcCompute _ => exact ⟨_, complete_eq _⟩
  | lrcCheck inp cc => exact ⟨_, execLrcCheck_eq inp cc⟩
  | hexEnc8 _ => exact ⟨_, complete_eq _⟩
  | hexEnc16 _ => exact ⟨_, complete_eq _⟩
  | hexDec8 _ => exact ⟨_, conclude_eq _⟩
  | hexDec16 _ => exact ⟨_, conclude_eq _⟩

/-- R27, R72: an issue of presentable ports, their code assigned or not, writes one latch fixed by the ports alone. -/
theorem issue_eq_setResult {p : Ports} (h : p.wf = true) : ∃ r, ∀ s, issue p s = .next (setResult r s) := by
  obtain ⟨op, -, -, hd⟩ | ⟨-, -, hd⟩ | ⟨hlong, -⟩ := decode_cases p
  · obtain ⟨r, hr⟩ := exec_eq_setResult (operandsOf p op)
    exact ⟨r, fun s => (issue_of_instr hd s).trans (hr s)⟩
  · exact ⟨.err .illegalCommand, fun s => (issue_of_illegal hd s).trans (takeIllegalCommand_eq s)⟩
  · rw [h] at hlong
    contradiction

theorem step_of_issue {s : State} {p : Ports} {rest : List HostMove} (h : s.moves = .issue p :: rest) :
    step s = issue p (s.withMoves rest) :=
  step_of_move h

/-- Settles O6: decoding turns a longer input away before the code is looked at, and every other issue writes a latch. -/
theorem inputCapacity : Obligations.InputCapacity := by
  unfold Obligations.InputCapacity
  refine ⟨Nat.le_add_left 19 _, fun s p rest hm hlong => ?_, fun s p rest hm hfits => ?_⟩
  · exact (step_of_issue hm).trans (issue_of_long (decode_of_long hlong) _)
  · obtain ⟨r, hr⟩ := issue_eq_setResult (wf_iff_length_le.2 hfits)
    exact ⟨_, (step_of_issue hm).trans (hr _)⟩

end Sys2Proof.Machine
end

section
/-!
What each command makes of its operands (R27): one payload or status, concluded on any state; and that a payload is
always legal (R21, R24, R25, R61).
-/
namespace Sys2Proof.Machine

/-- The payload or status that a command reports, fixed by its operands alone. -/
def reportOf : Instr → Except Status Payload
  | .encodeRead unit reg arg => .ok (.text (requestFrame unit fcRead reg arg))
  | .encodeWrite unit reg arg => .ok (.text (requestFrame unit fcWrite reg arg))
  | .decodeRead unit inp => decodeReadLine unit inp
  | .decodeWrite unit reg arg inp => decodeWriteLine unit reg arg inp
  | .lrcCompute inp => .ok (.byte (lrc inp))
  | .lrcCheck inp cc => if lrc inp = cc then .ok .checked else .error .checksumMismatch
  | .hexEnc8 b => .ok (.text (hex2 b))
  | .hexEnc16 w => .ok (.text (hex4 w))
  | .hexDec8 inp => (parseHex 2 inp).map fun v => .byte (BitVec.ofNat 8 v)
  | .hexDec16 inp => (parseHex 4 inp).map fun v => .word (BitVec.ofNat 16 v)

/-- Every command concludes with its report and does nothing else. -/
theorem exec_eq_conclude (i : Instr) (s : State) : exec i s = conclude (reportOf i) s := by
  cases i with
  | lrcCheck inp cc =>
    change execLrcCheck inp cc s = conclude (if lrc inp = cc then .ok .checked else .error .checksumMismatch) s
    unfold execLrcCheck
    split <;> rfl
  | _ => rfl

theorem exec_eq_setResult_report (i : Instr) (s : State) : exec i s = .next (setResult (resultOf (reportOf i)) s) :=
  (exec_eq_conclude i s).trans (conclude_eq _ s)

theorem resultOf_ne_empty (x : Except Status Payload) : resultOf x ≠ .empty := by
  cases x <;> simp [resultOf]

/-- A command's latch is legal when every payload it may report is. -/
theorem resultLegal_resultOf {x : Except Status Payload} (h : ∀ p, x = .ok p → payloadLegal p = true) :
    resultLegal (resultOf x) = true := by
  cases x with
  | ok p => exact h p rfl
  | error _ => rfl

/-! The texts: OUT_CAP and the wire alphabet (R25, R61, R145). -/

theorem hexdigit_mem_wireAlphabet : ∀ v : BitVec 4, hexdigit v ∈ wireAlphabet := by decide

theorem hex2_subset_wireAlphabet (b : Byte) : hex2 b ⊆ wireAlphabet := by
  simp [hex2, hexdigit_mem_wireAlphabet]

theorem hex4_subset_wireAlphabet (w : Word) : hex4 w ⊆ wireAlphabet := by
  simp [hex4, hexdigit_mem_wireAlphabet]

theorem requestFrame_length (unit fc : Byte) (r a : Word) : (requestFrame unit fc r a).length = 17 := by
  simp [requestFrame, bodyTxt]

theorem requestFrame_subset_wireAlphabet (unit fc : Byte) (r a : Word) : requestFrame unit fc r a ⊆ wireAlphabet := by
  have marks : [chColon] ⊆ wireAlphabet ∧ [chCR, chLF] ⊆ wireAlphabet := by decide
  simp only [requestFrame, bodyTxt, List.append_subset, hex2_subset_wireAlphabet, hex4_subset_wireAlphabet, marks,
    and_self]

theorem payloadLegal_text {out : List Byte} (hlen : out.length ≤ 17) (hchars : out ⊆ wireAlphabet) :
    payloadLegal (.text out) = true := by
  simpa [payloadLegal, hlen] using fun c hc => hchars hc

/-! The measurement: its setpoint and divisor go with its byte count (R24). -/

/-- A structurally complete read reply has a byte count of 4 with a setpoint, or of 2 without. -/
theorem readFieldsAt_byteCount {u : List Byte} {p : Nat} {r : ReadReply} (h : readFieldsAt u p = some r) :
    (r.n = 4 ∧ r.sp.isSome) ∨ (r.n = 2 ∧ r.sp = none) := by
  simp only [readFieldsAt, Option.bind_eq_some_iff, Option.ite_none_right_eq_some] at h
  obtain ⟨n, -, hn, pv, -, sp, hsp, cc, -, -, hr⟩ := h
  obtain rfl := Option.some.inj hr
  obtain rfl | rfl := hn
  · exact .inr ⟨rfl, by simpa [readSpField] using hsp.symm⟩
  · obtain ⟨w, -, rfl⟩ : ∃ w, field16 u (p + 10) = some w ∧ some w = sp := by simpa [readSpField] using hsp
    exact .inl ⟨rfl, rfl⟩

theorem parseRead_byteCount {unit : Byte} {u : List Byte} {r : ReadReply} (h : parseRead unit u = some r) :
    (r.n = 4 ∧ r.sp.isSome) ∨ (r.n = 2 ∧ r.sp = none) := by
  obtain ⟨p, -, hr⟩ := Option.bind_eq_some_iff.1 h
  exact readFieldsAt_byteCount hr

/-- What DECODE_READ accepts is the measurement of a structurally complete reply. -/
theorem decodeReadLine_ok {unit : Byte} {inp : List Byte} {p : Payload} (h : decodeReadLine unit inp = .ok p) :
    ∃ r, parseRead unit (fold inp) = some r ∧ p = .measurement r.n r.pv r.sp (divisorFor r.n) := by
  unfold decodeReadLine at h
  split at h
  · cases h
  · split at h
    · cases h
    · next r hr =>
      unfold judgeRead at h
      split at h
      · cases h
      · exact ⟨r, hr, by cases h; rfl⟩

theorem payloadLegal_of_decodeReadLine {unit : Byte} {inp : List Byte} {p : Payload}
    (h : decodeReadLine unit inp = .ok p) : payloadLegal p = true := by
  obtain ⟨r, hr, rfl⟩ := decodeReadLine_ok h
  obtain ⟨hn, hsp⟩ | ⟨hn, hsp⟩ := parseRead_byteCount hr <;> simp [payloadLegal, divisorFor, hn, hsp]

/-- What DECODE_WRITE accepts carries no data. -/
theorem decodeWriteLine_ok {unit : Byte} {reg arg : Word} {inp : List Byte} {p : Payload}
    (h : decodeWriteLine unit reg arg inp = .ok p) : p = .writeAck := by
  unfold decodeWriteLine at h
  split at h
  · cases h
  · split at h
    · cases h
    · unfold judgeWrite at h
      split at h
      · cases h
      · split at h <;> cases h
        rfl

/-- A mapped report carries a mapped value. -/
theorem eq_of_map_ok {f : Nat → Payload} {x : Except Status Nat} {p : Payload} (h : x.map f = .ok p) :
    ∃ v, p = f v := by
  cases x with
  | ok v => exact ⟨v, by cases h; rfl⟩
  | error e => cases h

/-- R21, R24, R25, R61: every payload that a command reports is legal. -/
theorem payloadLegal_reportOf {i : Instr} {p : Payload} (h : reportOf i = .ok p) : payloadLegal p = true := by
  cases i with
  | encodeRead unit reg arg =>
    cases h
    exact payloadLegal_text (requestFrame_length ..).le (requestFrame_subset_wireAlphabet ..)
  | encodeWrite unit reg arg =>
    cases h
    exact payloadLegal_text (requestFrame_length ..).le (requestFrame_subset_wireAlphabet ..)
  | decodeRead unit inp => exact payloadLegal_of_decodeReadLine h
  | decodeWrite unit reg arg inp =>
    obtain rfl := decodeWriteLine_ok h
    rfl
  | lrcCompute inp => cases h; rfl
  | lrcCheck inp cc =>
    simp only [reportOf] at h
    split at h <;> cases h
    rfl
  | hexEnc8 b => cases h; exact payloadLegal_text (by simp) (hex2_subset_wireAlphabet b)
  | hexEnc16 w => cases h; exact payloadLegal_text (by simp) (hex4_subset_wireAlphabet w)
  | hexDec8 inp =>
    obtain ⟨v, rfl⟩ := eq_of_map_ok h
    rfl
  | hexDec16 inp =>
    obtain ⟨v, rfl⟩ := eq_of_map_ok h
    rfl

theorem resultLegal_reportOf (i : Instr) : resultLegal (resultOf (reportOf i)) = true :=
  resultLegal_resultOf fun _ => payloadLegal_reportOf

/-- An issue that goes on was of presentable ports, and leaves a legal latch, whatever stood there. -/
theorem issue_next {p : Ports} {s t : State} (h : issue p s = .next t) :
    p.wf = true ∧ ∃ r, resultLegal r = true ∧ t = setResult r s := by
  obtain ⟨op, hwf, -, hd⟩ | ⟨hwf, -, hd⟩ | ⟨-, hd⟩ := decode_cases p
  · rw [issue_of_instr hd, exec_eq_setResult_report] at h
    exact ⟨hwf, _, resultLegal_reportOf _, by cases h; rfl⟩
  · rw [issue_of_illegal hd, takeIllegalCommand_eq] at h
    exact ⟨hwf, _, rfl, by cases h; rfl⟩
  · rw [issue_of_long hd] at h
    cases h

/-- Settles O3: a reset empties the latch, an issue writes a legal one, and no other step touches it. -/
theorem stepKeepsLatchLegal : Obligations.StepKeepsLatchLegal := by
  unfold Obligations.StepKeepsLatchLegal
  intro s s' hs hstep
  obtain ⟨-, rfl⟩ | ⟨rest, -, rfl⟩ | ⟨p, rest, -, hi⟩ | ⟨r, rest, v, -, -, rfl⟩ := step_cases hstep
  · exact hs
  · rfl
  · obtain ⟨-, r, hr, rfl⟩ := issue_next hi
    exact hr
  · exact hs

/-- Settles O2: the latch right after reset is Empty, which is legal. -/
theorem resetLatchLegal : Obligations.ResetLatchLegal := rfl

/-- Settles O18: the report of a command's operands, written over any state, is its whole effect. -/
theorem commandsOnlyReplaceResult : Obligations.CommandsOnlyReplaceResult := by
  unfold Obligations.CommandsOnlyReplaceResult
  exact fun i => ⟨resultOf (reportOf i), resultOf_ne_empty _, exec_eq_setResult_report i⟩

/-- Settles O4: a step carries out the move it takes, and an issue that decodes to a command is its `exec`. -/
theorem stepRunsDecodedCommand : Obligations.StepRunsDecodedCommand := by
  unfold Obligations.StepRunsDecodedCommand
  intro s p rest i hm hd
  exact (step_of_issue hm).trans (issue_of_instr hd _)

/-- Settles O19: both steps issue the same presentable ports, which write one latch fixed by the ports. -/
theorem nextResultIndependentOfHistory : Obligations.NextResultIndependentOfHistory := by
  unfold Obligations.NextResultIndependentOfHistory
  intro p s s' t t' rest rest' hm hm' ht ht'
  rw [step_of_issue hm] at ht
  rw [step_of_issue hm'] at ht'
  obtain ⟨hwf, -⟩ := issue_next ht
  obtain ⟨r, hr⟩ := issue_eq_setResult hwf
  obtain rfl : setResult r (s.withMoves rest) = t := Host.Outcome.next.inj ((hr _).symm.trans ht)
  obtain rfl : setResult r (s'.withMoves rest') = t' := Host.Outcome.next.inj ((hr _).symm.trans ht')
  exact ⟨rfl, rfl, rfl⟩

end Sys2Proof.Machine
end

section
/-!
The operands a command takes from the ports (R22, R71).
-/
namespace Sys2Proof.Machine

/-- R71: a code that selects a command is that command's code. -/
theorem opcodeOf_eq_some {c : Byte} {op : Opcode} (h : opcodeOf c = some op) : c = opcodeCode op := by
  have table : ∀ e ∈ opcodeTable, e.1 = opcodeCode e.2 := by decide
  obtain ⟨front, back, hsplit, -⟩ := List.lookup_eq_some_iff.1 h
  exact table (c, op) (by simp [hsplit])

/-- R9, R106, R122: the low byte of ARG is its value mod 256. -/
theorem lowByte_eq {v w : Word} (h : v.toNat % 256 = w.toNat % 256) : v.extractLsb' 0 8 = w.extractLsb' 0 8 := by
  apply BitVec.eq_of_toNat_eq
  simpa using h

/-- R22: a command's operands are in the ports its row reads. -/
theorem operandsOf_congr {p q : Ports} (h : SamePortsRead p q) {op : Opcode} (hop : opcodeOf p.cmd = some op) :
    operandsOf p op = operandsOf q op := by
  have hcmd := opcodeOf_eq_some hop
  obtain ⟨-, hreq, hread, hwrite, hlrc, hcheck, henc8, henc16, hdec⟩ := h
  cases op with
  | encodeRead => 
    obtain ⟨hu, hr, ha⟩ := hreq (.inl hcmd)
    simp only [operandsOf, hu, hr, ha]
  | encodeWrite =>
    obtain ⟨hu, hr, ha⟩ := hreq (.inr hcmd)
    simp only [operandsOf, hu, hr, ha]
  | decodeRead =>
    obtain ⟨hu, hi⟩ := hread hcmd
    simp only [operandsOf, hu, hi]
  | decodeWrite =>
    obtain ⟨hu, hr, ha, hi⟩ := hwrite hcmd
    simp only [operandsOf, hu, hr, ha, hi]
  | lrcCompute => simp only [operandsOf, hlrc hcmd]
  | lrcCheck =>
    obtain ⟨hi, ha⟩ := hcheck hcmd
    simp only [operandsOf, hi, lowByte_eq ha]
  | hexEnc8 => simp only [operandsOf, lowByte_eq (henc8 hcmd)]
  | hexEnc16 => simp only [operandsOf, henc16 hcmd]
  | hexDec8 => simp only [operandsOf, hdec (.inl hcmd)]
  | hexDec16 => simp only [operandsOf, hdec (.inr hcmd)]

/-- Settles O14: the bundles decode alike, as they agree on the code and on every operand its command takes. -/
theorem unreadPortsWithoutEffect : Obligations.UnreadPortsWithoutEffect := by
  unfold Obligations.UnreadPortsWithoutEffect
  intro p q s hp hq hsame
  have hcmd : p.cmd = q.cmd := hsame.1
  have hdecode : Sys2Proof.decode p = Sys2Proof.decode q := by
    unfold Sys2Proof.decode
    rw [if_pos hp, if_pos hq, ← hcmd]
    cases hop : opcodeOf p.cmd with
    | none => rfl
    | some op => exact congrArg Decoded.instr (operandsOf_congr hsame hop)
  simp only [issue, hdecode]

end Sys2Proof.Machine
end

section
/-!
The register view of RESULT and its decoder (R26): what a read returns, and that a legal RESULT is read back.
-/
namespace Sys2Proof.Machine

/-- R26: OUT is read back from the registers that show it. -/
theorem decodeOut_eq_drop {rd : ResReg → Option Word} {out : List Byte}
    (hrd : ∀ i, rd (.out i) = (out[i]?).map (·.setWidth 16)) :
    ∀ k i, i + k = out.length → decodeOut rd i k = some (out.drop i)
  | 0, i, h => by rw [List.drop_of_length_le (by omega)]; rfl
  | k + 1, i, h => by
    have hi : i < out.length := by omega
    rw [decodeOut, hrd, List.getElem?_eq_getElem hi, decodeOut_eq_drop hrd k (i + 1) (by omega),
      List.drop_eq_getElem_cons hi]
    simp

theorem decodePayload_text {out : List Byte} (h : out.length ≤ 17) :
    decodePayload (payloadReg (.text out)) = some (.text out) := by
  have hlen : (BitVec.ofNat 16 out.length).toNat = out.length := by
    rw [BitVec.toNat_ofNat, Nat.mod_eq_of_lt (by omega)]
  have hout := decodeOut_eq_drop (rd := payloadReg (.text out)) (fun _ => rfl) out.length 0 (Nat.zero_add _)
  simp [decodePayload, payloadReg, kindCode, hlen, hout]

theorem decodePayload_measurement (n : Byte) (pv : Word) (sp : Option Word) (d : Divisor) :
    decodePayload (payloadReg (.measurement n pv sp d)) = some (.measurement n pv sp d) := by
  cases sp <;> cases d <;> simp [decodePayload, payloadReg, kindCode, decodeSp, divisorOf, divisorNat]

theorem decodePayload_payloadReg {p : Payload} (h : payloadLegal p = true) :
    decodePayload (payloadReg p) = some p := by
  cases p with
  | text out => exact decodePayload_text (of_decide_eq_true (Bool.and_eq_true_iff.1 h).1)
  | byte v => simp [decodePayload, payloadReg, kindCode]
  | word v => rfl
  | checked => rfl
  | measurement n pv sp d => exact decodePayload_measurement n pv sp d
  | writeAck => rfl

/-- Settles O10: an Empty, each status and each legal payload is decoded from its own registers. -/
theorem registerViewDeterminesResult : Obligations.RegisterViewDeterminesResult := by
  unfold Obligations.RegisterViewDeterminesResult
  intro r hr
  cases r with
  | empty => rfl
  | err e => cases e <;> rfl
  | ok p =>
    have hvalid : readReg (.ok p) .valid = some 1 := rfl
    have hstatus : readReg (.ok p) .status = some 0 := rfl
    have hpayload : decodePayload (readReg (.ok p)) = some p := decodePayload_payloadReg hr
    simp [decodeRegs, hvalid, hstatus, hpayload]

/-- Settles O8: each register read is a value noted by the host or a fault, and without a payload there are no data. -/
theorem registerReadReturnsOrFaults : Obligations.RegisterReadReturnsOrFaults := by
  unfold Obligations.RegisterReadReturnsOrFaults
  refine ⟨fun s r rest v hm hv => ?_, fun s r rest hm hv => ?_, fun r hvalid hstatus e => ?_⟩
  · exact (step_of_move hm).trans (readRegister_of_value (s := s.withMoves rest) hv)
  · exact (step_of_move hm).trans (readRegister_of_none (s := s.withMoves rest) hv)
  · cases r with
    | valid => contradiction
    | status => contradiction
    | _ => exact ⟨rfl, rfl⟩

/-- Settles O9: row by row of R26. -/
theorem registerViewOfEachResult : Obligations.RegisterViewOfEachResult := by
  unfold Obligations.RegisterViewOfEachResult
  refine ⟨fun q => ?_, fun e q => ?_, fun out q => ?_, fun v q => ?_, fun v q => ?_, fun q => ?_,
    fun n pv sp d q => ?_, fun q => ?_⟩
  · cases q <;> rfl
  · cases e <;> cases q <;> rfl
  · cases q <;> rfl
  · cases q <;> rfl
  · cases q <;> rfl
  · cases q <;> rfl
  · cases q <;> cases sp <;> cases d <;> rfl
  · cases q <;> rfl

end Sys2Proof.Machine
end

section
/-!
The host's setpoint conversion (R31) over the exact rationals: the magnitude of a binary64 number, its product by ten
cut to 53 bits, and which temperatures are converted. The layout and the arithmetic are log entries 14 and 15.
-/
namespace Sys2Proof.Machine

theorem f64Exp_eq (t : BitVec 64) : f64Exp t = t.toNat / 2 ^ 52 % 2048 := by
  simp [f64Exp, Nat.shiftRight_eq_div_pow]

theorem f64Significand_eq (t : BitVec 64) :
    f64Significand t = if f64Exp t = 0 then t.toNat % 2 ^ 52 else t.toNat % 2 ^ 52 + 2 ^ 52 := by
  simp [f64Significand]

theorem f64Finite_iff {t : BitVec 64} : f64Finite t = true ↔ t.toNat / 2 ^ 52 % 2048 ≠ 2047 := by
  simp [f64Finite, f64Exp_eq]

/-- A normal number has the hidden bit. -/
theorem f64Significand_ge {t : BitVec 64} (h : f64Exp t ≠ 0) : 2 ^ 52 ≤ f64Significand t := by
  rw [f64Significand_eq, if_neg h]
  exact Nat.le_add_left ..

theorem f64Significand_lt (t : BitVec 64) : f64Significand t < 2 ^ 53 := by
  rw [f64Significand_eq]
  split <;> omega

/-- The magnitude is the significand in the unit of the exponent; subnormals share the unit of exponent 1. -/
theorem binary64Magnitude_eq (t : BitVec 64) :
    binary64Magnitude t = f64Significand t * (2 ^ (max (f64Exp t) 1 - 1) / 2 ^ 1074) := by
  unfold binary64Magnitude
  rw [f64Significand_eq, ← f64Exp_eq]
  split
  · next h => simp [h, div_eq_mul_inv]
  · next h =>
    obtain ⟨e, he⟩ := Nat.exists_eq_add_one_of_ne_zero h
    rw [he, Nat.max_eq_left (Nat.le_add_left 1 e), Nat.add_sub_cancel, pow_succ (2 : Rat) e, pow_succ (2 : Rat) 1074,
      ← mul_assoc, mul_div_mul_right _ _ two_ne_zero, mul_div_assoc, Nat.add_comm]

/-- Rounding a significand to its 53 leading bits rounds the number it stands for, in any unit that the exponent range
allows. -/
theorem roundsTo53Bits_of_significand {m j : Nat} (h : j = 0 ∨ 2 ^ 52 ≤ m) :
    RoundsTo53Bits (m * (2 ^ j / 2 ^ 1074))
      ((roundHalfEven m (2 ^ (Nat.log2 m - 52)) * 2 ^ (Nat.log2 m - 52) : Nat) * (2 ^ j / 2 ^ 1074)) := by
  have hlo : Nat.log2 m - 52 + j = 0 ∨ 2 ^ 52 * 2 ^ (Nat.log2 m - 52) ≤ m := by
    obtain hlog | hlog := Nat.lt_or_ge 52 (Nat.log2 m)
    · have hm : m ≠ 0 := by rintro rfl; simp at hlog
      rw [← Nat.pow_add, Nat.add_sub_cancel' hlog.le]
      exact .inr (Nat.log2_self_le hm)
    · rw [Nat.sub_eq_zero_of_le hlog]
      simpa using h
  have hhi : m < 2 ^ 53 * 2 ^ (Nat.log2 m - 52) := by
    rw [← Nat.pow_add]
    exact Nat.lt_log2_self.trans_le (Nat.pow_le_pow_right (by omega) (by omega))
  have hround := roundHalfEven_rounds m (2 ^ (Nat.log2 m - 52)) (by positivity)
  generalize Nat.log2 m - 52 = k at *
  generalize roundHalfEven m (2 ^ k) = r at *
  have hunit : (0 : Rat) < 2 ^ j / 2 ^ 1074 := by positivity
  have hsplit : (2 : Rat) ^ (k + j) / 2 ^ 1074 = 2 ^ k * (2 ^ j / 2 ^ 1074) := by rw [pow_add, mul_div_assoc]
  generalize (2 : Rat) ^ j / 2 ^ 1074 = unit at *
  refine ⟨k + j, r, hlo.imp_right fun hlo => ?_, ?_, ?_, ?_⟩ <;> rw [hsplit]
  · rw [← mul_assoc]
    exact mul_le_mul_of_nonneg_right (mod_cast hlo) hunit.le
  · rw [← mul_assoc]
    exact mul_lt_mul_of_pos_right (mod_cast hhi) hunit
  · rw [mul_div_mul_right _ _ hunit.ne']
    exact_mod_cast hround
  · push_cast
    ring

theorem f64TimesTen_rounds (t : BitVec 64) :
    RoundsTo53Bits (binary64Magnitude t * 10) (f64TimesTen t * (2 ^ (max (f64Exp t) 1 - 1) / 2 ^ 1074)) := by
  have hx : binary64Magnitude t * 10 = (f64Significand t * 10 : Nat) * (2 ^ (max (f64Exp t) 1 - 1) / 2 ^ 1074) := by
    rw [binary64Magnitude_eq, Nat.cast_mul, Nat.cast_ofNat, mul_right_comm]
  rw [hx]
  refine roundsTo53Bits_of_significand ?_
  by_cases h : f64Exp t = 0
  · exact .inl (by rw [h]; rfl)
  · exact .inr ((f64Significand_ge h).trans (Nat.le_mul_of_pos_right _ (by omega)))

theorem roundsHalfEven_natCast (n : Nat) : RoundsHalfEven n n := by
  simp [RoundsHalfEven]

/-- The magnitude is the 53-bit product rounded to an integer. -/
theorem setpointMagnitude_rounds (t : BitVec 64) :
    RoundsHalfEven (f64TimesTen t * (2 ^ (max (f64Exp t) 1 - 1) / 2 ^ 1074)) (setpointMagnitude t) := by
  have he : 1 ≤ max (f64Exp t) 1 := Nat.le_max_right ..
  unfold setpointMagnitude
  generalize max (f64Exp t) 1 = e at *
  generalize f64TimesTen t = m at *
  dsimp only
  split
  · next h =>
    have hx : (m : Rat) * (2 ^ (e - 1) / 2 ^ 1074) = (m * 2 ^ (e - 1075) : Nat) := by
      rw [show e - 1 = e - 1075 + 1074 by omega, pow_add, mul_div_cancel_right₀ _ (by positivity)]
      push_cast
      rfl
    rw [hx]
    exact roundsHalfEven_natCast _
  · next h =>
    have hx : (m : Rat) * (2 ^ (e - 1) / 2 ^ 1074) = m / (2 ^ (1075 - e) : Nat) := by
      rw [show 1074 = e - 1 + (1075 - e) by omega, pow_add, div_mul_cancel_left₀ (by positivity)]
      push_cast
      rfl
    rw [hx]
    exact roundHalfEven_rounds _ _ (by positivity)

/-- R31: what is converted, and to what: the finite temperatures whose rounded product is in range and not negative. -/
theorem setpointRaw_eq_some {t : BitVec 64} {raw : Word} :
    setpointRaw t = some raw ↔
      f64Finite t = true ∧ (t.msb = false ∨ setpointMagnitude t = 0) ∧ raw.toNat = setpointMagnitude t := by
  have hlt := raw.isLt
  unfold setpointRaw
  split
  · next hinf => simp [hinf]
  · next hfin =>
    rw [Bool.not_eq_false] at hfin
    split
    · next hneg => simp [hneg.1, hneg.2]
    · next hsign =>
      split
      · next hbig => exact iff_of_false nofun fun ⟨_, _, hraw⟩ => by omega
      · next hfits =>
        have hvalue : BitVec.ofNat 16 (setpointMagnitude t) = raw ↔ raw.toNat = setpointMagnitude t := by
          rw [← BitVec.toNat_inj, BitVec.toNat_ofNat, Nat.mod_eq_of_lt (by omega), eq_comm]
        have hsign' : t.msb = false ∨ setpointMagnitude t = 0 := by simpa [or_iff_not_imp_left] using hsign
        simp [hvalue, hfin, hsign']

theorem writeSetpointMoves_eq_none {t : BitVec 64} (h : ∀ raw, setpointRaw t ≠ some raw) (u : Byte)
    (line : List Byte) : writeSetpointMoves u t line = none := by
  rw [writeSetpointMoves, Option.eq_none_iff_forall_ne_some.2 h, Option.map_none]

theorem writeSetpointMoves_eq_some {t : BitVec 64} {raw : Word} (h : setpointRaw t = some raw) (u : Byte)
    (line : List Byte) : writeSetpointMoves u t line =
      some [.issue (encode (.encodeWrite u 0x4701 raw)), .issue (encode (.decodeWrite u 0x4701 raw line))] := by
  rw [writeSetpointMoves, h]
  rfl

/-- Settles O52: the magnitude is rounded twice as the rule says, and `setpointRaw_eq_some` is what is converted. -/
theorem setpointConversionRefusesOutOfRange : Obligations.SetpointConversionRefusesOutOfRange := by
  unfold Obligations.SetpointConversionRefusesOutOfRange
  refine ⟨fun t => f64Finite_iff, fun t _ => ⟨_, f64TimesTen_rounds t, setpointMagnitude_rounds t⟩,
    fun t u line hinf => ?_, fun t u line hbig => ?_, fun t u line hneg hpos => ?_, fun t raw hraw => ?_,
    fun t hfin hfits hsign => ?_⟩
  · refine writeSetpointMoves_eq_none (fun raw hraw => ?_) u line
    obtain ⟨hfin, -, -⟩ := setpointRaw_eq_some.1 hraw
    simp [hinf] at hfin
  · refine writeSetpointMoves_eq_none (fun raw hraw => ?_) u line
    obtain ⟨-, -, hvalue⟩ := setpointRaw_eq_some.1 hraw
    have := raw.isLt
    omega
  · refine writeSetpointMoves_eq_none (fun raw hraw => ?_) u line
    obtain ⟨-, hsign | hzero, -⟩ := setpointRaw_eq_some.1 hraw
    · simp [hneg] at hsign
    · omega
  · obtain ⟨-, -, hvalue⟩ := setpointRaw_eq_some.1 hraw
    exact hvalue
  · have hvalue : (BitVec.ofNat 16 (setpointMagnitude t)).toNat = setpointMagnitude t := by
      rw [BitVec.toNat_ofNat, Nat.mod_eq_of_lt (by omega)]
    have hraw := setpointRaw_eq_some.2 ⟨hfin, hsign, hvalue⟩
    exact ⟨_, hraw, hvalue, writeSetpointMoves_eq_some hraw⟩

end Sys2Proof.Machine
end

section
/-!
The binary64 reading (R169) as exponent and significand, and its conversion back (R31).
-/
namespace Sys2Proof.Machine

/-- A quotient closer than a half to an integer is rounded to it. -/
theorem roundHalfEven_eq_of_near {num den n : Nat} (hden : 0 < den) (hlo : 2 * n * den < 2 * num + den)
    (hhi : 2 * num < 2 * n * den + den) : roundHalfEven num den = n := by
  obtain ⟨h1, h2, -⟩ := roundHalfEven_bounds num den hden
  generalize roundHalfEven num den = r at *
  have hle : r < n + 1 := by
    by_contra hgt
    linarith [Nat.mul_le_mul_right den (Nat.le_of_not_lt hgt)]
  have hge : n < r + 1 := by
    by_contra hgt
    linarith [Nat.mul_le_mul_right den (Nat.le_of_not_lt hgt)]
  omega

theorem roundHalfEven_zero {den : Nat} (hden : 0 < den) : roundHalfEven 0 den = 0 :=
  roundHalfEven_eq_of_near hden (by simpa using hden) (by simpa using hden)

theorem divisorNat_bounds (d : Divisor) : 1 ≤ divisorNat d ∧ divisorNat d ≤ 10 := by
  cases d <;> decide

/-- The logarithm of a reading, and the range it leaves for the exponent. -/
theorem ratioLog_bounds {raw : Word} (hraw : raw ≠ 0) (d : Divisor) :
    ratioLog raw.toNat (divisorNat d) ≤ 19 ∧
    2 ^ ratioLog raw.toNat (divisorNat d) * divisorNat d ≤ 16 * raw.toNat ∧
    16 * raw.toNat < 2 ^ (ratioLog raw.toNat (divisorNat d) + 1) * divisorNat d := by
  obtain ⟨hd1, hd10⟩ := divisorNat_bounds d
  have hlt := raw.isLt
  have hpos : 0 < raw.toNat := Nat.pos_of_ne_zero fun h => hraw (BitVec.eq_of_toNat_eq h)
  generalize divisorNat d = den at *
  have hquot : 16 * raw.toNat / den ≠ 0 := (Nat.div_pos (by omega) hd1).ne'
  have hmax : 16 * raw.toNat / den < 2 ^ 20 := (Nat.div_le_self _ _).trans_lt (by omega)
  refine ⟨Nat.le_of_lt_succ ((Nat.log2_lt hquot).2 hmax), ?_, ?_⟩
  · exact (Nat.le_div_iff_mul_le hd1).1 (Nat.log2_self_le hquot)
  · exact (Nat.div_lt_iff_lt_mul hd1).1 Nat.lt_log2_self

/-- The significand of a reading has 53 bits: rounding it up does not carry into the exponent. -/
theorem ratioSignificand_bounds {raw : Word} (hraw : raw ≠ 0) (d : Divisor) :
    2 ^ 52 ≤ ratioSignificand raw.toNat (divisorNat d) ∧ ratioSignificand raw.toNat (divisorNat d) < 2 ^ 53 := by
  obtain ⟨hd1, hd10⟩ := divisorNat_bounds d
  obtain ⟨hlog, hlo, hhi⟩ := ratioLog_bounds hraw d
  unfold ratioSignificand
  generalize ratioLog raw.toNat (divisorNat d) = l at *
  generalize divisorNat d = den at *
  obtain ⟨h1, h2, -⟩ := roundHalfEven_bounds (raw.toNat * 2 ^ (56 - l)) den hd1
  generalize roundHalfEven (raw.toNat * 2 ^ (56 - l)) den = m at *
  have hscale : 2 ^ (56 - l) * 2 ^ l = 2 ^ 56 := by rw [← Nat.pow_add, Nat.sub_add_cancel (by omega)]
  have hunit : 2 ^ 37 ≤ 2 ^ (56 - l) := Nat.pow_le_pow_right (by omega) (by omega)
  generalize 2 ^ (56 - l) = unit at *
  have hlo' : 2 ^ 52 * den ≤ raw.toNat * unit := by
    have h := Nat.mul_le_mul_left unit hlo
    rw [← Nat.mul_assoc, hscale] at h
    linarith
  have hhi' : raw.toNat * unit + 2 ^ 33 ≤ 2 ^ 53 * den := by
    have h := Nat.mul_le_mul_left unit (Nat.succ_le_of_lt hhi)
    rw [Nat.pow_succ, ← Nat.mul_assoc, ← Nat.mul_assoc, hscale] at h
    linarith
  constructor
  · by_contra hm
    linarith [Nat.mul_le_mul_right den (Nat.succ_le_of_lt (Nat.lt_of_not_le hm))]
  · by_contra hm
    linarith [Nat.mul_le_mul_right den (Nat.le_of_not_lt hm)]

/-- The fields of the binary64 reading of a nonzero raw value, which is a normal number. -/
theorem scaleF64_toNat {raw : Word} (hraw : raw ≠ 0) (d : Divisor) :
    (scaleF64 raw d).toNat = (1019 + ratioLog raw.toNat (divisorNat d)) * 2 ^ 52 +
      (ratioSignificand raw.toNat (divisorNat d) - 2 ^ 52) := by
  obtain ⟨hlog, -, -⟩ := ratioLog_bounds hraw d
  obtain ⟨hmlo, hmhi⟩ := ratioSignificand_bounds hraw d
  rw [scaleF64, if_neg hraw, BitVec.toNat_ofNat]
  omega

theorem f64Exp_scaleF64 {raw : Word} (hraw : raw ≠ 0) (d : Divisor) :
    f64Exp (scaleF64 raw d) = 1019 + ratioLog raw.toNat (divisorNat d) := by
  obtain ⟨hlog, -, -⟩ := ratioLog_bounds hraw d
  obtain ⟨hmlo, hmhi⟩ := ratioSignificand_bounds hraw d
  rw [f64Exp_eq, scaleF64_toNat hraw]
  omega

theorem f64Significand_scaleF64 {raw : Word} (hraw : raw ≠ 0) (d : Divisor) :
    f64Significand (scaleF64 raw d) = ratioSignificand raw.toNat (divisorNat d) := by
  obtain ⟨hmlo, hmhi⟩ := ratioSignificand_bounds hraw d
  rw [f64Significand_eq, f64Exp_scaleF64 hraw, if_neg (by omega), scaleF64_toNat hraw]
  omega

theorem scaleF64_msb {raw : Word} (hraw : raw ≠ 0) (d : Divisor) : (scaleF64 raw d).msb = false := by
  obtain ⟨hlog, -, -⟩ := ratioLog_bounds hraw d
  obtain ⟨hmlo, hmhi⟩ := ratioSignificand_bounds hraw d
  rw [BitVec.msb_eq_false_iff_two_mul_lt, scaleF64_toNat hraw]
  omega

/-- The product by ten, cut back to 53 bits from at most 57, keeps to within half of the 4 bits that go. -/
theorem f64TimesTen_near (t : BitVec 64) :
    f64TimesTen t ≤ f64Significand t * 10 + 8 ∧ f64Significand t * 10 ≤ f64TimesTen t + 8 := by
  have hlog : Nat.log2 (f64Significand t * 10) ≤ 56 := by
    obtain hzero | hpos := Nat.eq_zero_or_pos (f64Significand t)
    · simp [hzero]
    · have hlt := f64Significand_lt t
      exact Nat.le_of_lt_succ ((Nat.log2_lt (by omega)).2 (by omega))
  have hunit : 2 ^ (Nat.log2 (f64Significand t * 10) - 52) ≤ 2 ^ 4 := Nat.pow_le_pow_right (by omega) (by omega)
  obtain ⟨hle, hge, -⟩ := roundHalfEven_bounds (f64Significand t * 10) _
    (Nat.two_pow_pos (Nat.log2 (f64Significand t * 10) - 52))
  rw [Nat.mul_assoc] at hle hge
  dsimp only [f64TimesTen]
  omega

/-- The product by ten of a reading in tenths is the raw value in the reading's unit, to within 13 units. -/
theorem f64TimesTen_scaleF64_near {raw : Word} (hraw : raw ≠ 0) :
    f64TimesTen (scaleF64 raw .ten) ≤ raw.toNat * 2 ^ (56 - ratioLog raw.toNat 10) + 13 ∧
    raw.toNat * 2 ^ (56 - ratioLog raw.toNat 10) ≤ f64TimesTen (scaleF64 raw .ten) + 13 := by
  obtain ⟨hle, hge⟩ := f64TimesTen_near (scaleF64 raw .ten)
  have hm : f64Significand (scaleF64 raw .ten) = ratioSignificand raw.toNat 10 := f64Significand_scaleF64 hraw .ten
  obtain ⟨hmle, hmge, -⟩ := roundHalfEven_bounds (raw.toNat * 2 ^ (56 - ratioLog raw.toNat 10)) 10 (by omega)
  rw [hm, ratioSignificand] at hle hge
  omega

/-- The error of the product is far below half of its unit, which is at least 2^37. -/
theorem setpointMagnitude_scaleF64 {raw : Word} (hraw : raw ≠ 0) :
    setpointMagnitude (scaleF64 raw .ten) = raw.toNat := by
  obtain ⟨hlog, -, -⟩ := ratioLog_bounds hraw .ten
  change ratioLog raw.toNat 10 ≤ 19 at hlog
  have hexp : f64Exp (scaleF64 raw .ten) = 1019 + ratioLog raw.toNat 10 := f64Exp_scaleF64 hraw .ten
  obtain ⟨hle, hge⟩ := f64TimesTen_scaleF64_near hraw
  have hunit : 2 ^ 37 ≤ 2 ^ (56 - ratioLog raw.toNat 10) := Nat.pow_le_pow_right (by omega) (by omega)
  unfold setpointMagnitude
  rw [hexp, Nat.max_eq_left (by omega)]
  dsimp only
  rw [if_neg (by omega), show 1075 - (1019 + ratioLog raw.toNat 10) = 56 - ratioLog raw.toNat 10 by omega]
  exact roundHalfEven_eq_of_near (by omega) (by rw [Nat.mul_assoc]; omega) (by rw [Nat.mul_assoc]; omega)

theorem setpointMagnitude_of_zero_product {t : BitVec 64} (h : f64TimesTen t = 0) : setpointMagnitude t = 0 := by
  unfold setpointMagnitude
  dsimp only
  rw [h]
  split
  · exact Nat.zero_mul _
  · exact roundHalfEven_zero (Nat.two_pow_pos _)

/-- Settles O53: the reading of zero is zero, and every other reading is a positive number whose product is rounded to
the raw value. -/
theorem setpointOfReadingIsRaw : Obligations.SetpointOfReadingIsRaw := by
  unfold Obligations.SetpointOfReadingIsRaw
  intro raw
  obtain rfl | hraw := eq_or_ne raw 0
  · exact setpointRaw_eq_some.2 ⟨rfl, .inl rfl, (setpointMagnitude_of_zero_product rfl).symm⟩
  · have hfin : f64Finite (scaleF64 raw .ten) = true := by
      obtain ⟨hlog, -, -⟩ := ratioLog_bounds hraw .ten
      rw [f64Finite, f64Exp_scaleF64 hraw, bne_iff_ne]
      omega
    exact setpointRaw_eq_some.2 ⟨hfin, .inl (scaleF64_msb hraw .ten), (setpointMagnitude_scaleF64 hraw).symm⟩

end Sys2Proof.Machine
end

section
/-!
The command encoding (R71, R72, R74): the ports that a command is written to, the command that ports decode to, and that
each undoes the other.
-/
namespace Sys2Proof.Machine

theorem decode_of_opcode {p : Ports} {op : Opcode} (hwf : p.wf = true) (hop : opcodeOf p.cmd = some op) :
    Sys2Proof.decode p = .instr (operandsOf p op) := by
  simp [Sys2Proof.decode, hwf, hop]

/-- Ports that decode to a command are presentable, hold its code, and hold its operands. -/
theorem decode_eq_instr {p : Ports} {i : Instr} (h : Sys2Proof.decode p = .instr i) :
    ∃ op, p.wf = true ∧ opcodeOf p.cmd = some op ∧ i = operandsOf p op := by
  obtain ⟨op, hwf, hop, hd⟩ | ⟨-, -, hd⟩ | ⟨-, hd⟩ := decode_cases p
  · exact ⟨op, hwf, hop, Decoded.instr.inj (h.symm.trans hd)⟩
  · cases h.symm.trans hd
  · cases h.symm.trans hd

/-- R71: the encoding of every command drives its assigned code and stays presentable. -/
theorem cmdCode_statement (i : Instr) : Laws.CmdCode.Statement i := by
  cases i with
  | encodeRead u r a => exact Laws.CmdCode.encodeRead u r a
  | encodeWrite u r a => exact Laws.CmdCode.encodeWrite u r a
  | decodeRead u inp => exact Laws.CmdCode.decodeRead u inp
  | decodeWrite u r a inp => exact Laws.CmdCode.decodeWrite u r a inp
  | lrcCompute inp => exact Laws.CmdCode.lrcCompute inp
  | lrcCheck inp cc => exact Laws.CmdCode.lrcCheck inp cc
  | hexEnc8 b => exact Laws.CmdCode.hexEnc8 b
  | hexEnc16 w => exact Laws.CmdCode.hexEnc16 w
  | hexDec8 inp => exact Laws.CmdCode.hexDec8 inp
  | hexDec16 inp => exact Laws.CmdCode.hexDec16 inp

/-- R106, R122: what is written to ARG[7:0] is read from it. -/
@[simp] theorem extractLsb'_withArgLow (arg : Word) (b : Byte) : (withArgLow arg b).extractLsb' 0 8 = b := by
  have hb := b.isLt
  have harg := arg.isLt
  apply BitVec.eq_of_toNat_eq
  simp only [withArgLow, BitVec.extractLsb'_toNat, BitVec.toNat_ofNat, Nat.shiftRight_zero]
  omega

/-- R106, R122: ARG[7:0] written back over ARG leaves it as it was. -/
@[simp] theorem withArgLow_extractLsb' (arg : Word) : withArgLow arg (arg.extractLsb' 0 8) = arg := by
  have harg := arg.isLt
  apply BitVec.eq_of_toNat_eq
  simp only [withArgLow, BitVec.extractLsb'_toNat, BitVec.toNat_ofNat, Nat.shiftRight_zero]
  omega

/-- R71, R74: a command's operands are read from the ports they are written to. -/
theorem operandsOf_encodeOnto (bg : Ports) (i : Instr) : operandsOf (encodeOnto bg i) i.opcode = i := by
  cases i with
  | lrcCheck inp cc => exact congrArg (Instr.lrcCheck inp) (extractLsb'_withArgLow bg.arg cc)
  | hexEnc8 b => exact congrArg Instr.hexEnc8 (extractLsb'_withArgLow bg.arg b)
  | _ => rfl

/-- R71, R74: the operands and the code that ports hold, written over them, leave them as they were. -/
theorem encodeOnto_operandsOf {p : Ports} {op : Opcode} (hcmd : p.cmd = opcodeCode op) :
    encodeOnto p (operandsOf p op) = p := by
  obtain ⟨cmd, unit, reg, arg, inp⟩ := p
  obtain rfl : cmd = opcodeCode op := hcmd
  cases op with
  | lrcCheck => simp only [operandsOf, encodeOnto, withArgLow_extractLsb']
  | hexEnc8 => simp only [operandsOf, encodeOnto, withArgLow_extractLsb']
  | _ => rfl

/-- R8: the only operand that could be too long is IN itself. -/
theorem operandsOf_wf {p : Ports} (h : p.wf = true) (op : Opcode) : (operandsOf p op).wf = true := by
  cases op with
  | encodeRead => rfl
  | encodeWrite => rfl
  | hexEnc8 => rfl
  | hexEnc16 => rfl
  | _ => exact h

/-- Settles O12: the encoding drives the command's own code, and the operands are read from where it wrote them. -/
theorem decodeEncodeAgree : Obligations.DecodeEncodeAgree := by
  unfold Obligations.DecodeEncodeAgree
  intro bg i hbg hi
  obtain ⟨hop, hwf⟩ := cmdCode_statement i bg
  rw [decode_of_opcode (hwf hbg hi) hop, operandsOf_encodeOnto]

/-- Settles O13: decoded ports hold the command's code, and its operands are their own fields. -/
theorem encodingRestoresDecodedPorts : Obligations.EncodingRestoresDecodedPorts := by
  unfold Obligations.EncodingRestoresDecodedPorts
  intro p i hd
  obtain ⟨op, hwf, hop, rfl⟩ := decode_eq_instr hd
  exact ⟨encodeOnto_operandsOf (opcodeOf_eq_some hop), operandsOf_wf hwf op⟩

/-- R72: the illegal codes are those that the table does not assign. -/
theorem opcodeOf_eq_none {c : Byte} : opcodeOf c = none ↔ c ∉ assignedCodes := by
  have hcodes : assignedCodes = opcodeTable.map Prod.fst := rfl
  simp only [opcodeOf, hcodes, List.lookup_eq_none_iff, bne_iff_ne, List.mem_map]
  exact ⟨fun h ⟨e, he, hc⟩ => h e he hc.symm, fun h e he hc => h ⟨e, he, hc.symm⟩⟩

theorem decode_of_illegal {p : Ports} (hwf : p.wf = true) (hc : p.cmd ∉ assignedCodes) :
    Sys2Proof.decode p = .illegalCommand p.cmd := by
  simp [Sys2Proof.decode, hwf, opcodeOf_eq_none.2 hc]

theorem decode_of_assigned {p : Ports} (hwf : p.wf = true) (hc : p.cmd ∈ assignedCodes) :
    ∃ i, Sys2Proof.decode p = .instr i := by
  obtain ⟨op, hop⟩ := Option.ne_none_iff_exists'.1 fun hnone => opcodeOf_eq_none.1 hnone hc
  exact ⟨operandsOf p op, decode_of_opcode hwf hop⟩

/-- Settles O5: a code outside the table decodes as illegal, whose meaning is `raise`, and a code in it is a command. -/
theorem illegalCommandRaises : Obligations.IllegalCommandRaises := by
  unfold Obligations.IllegalCommandRaises
  refine ⟨fun s p rest hm hwf hc => ?_, fun p => decode_of_assigned, ?_, ?_, ?_⟩
  · exact (step_of_issue hm).trans (issue_of_illegal (decode_of_illegal hwf hc) _)
  · set_option maxRecDepth 4000 in decide
  · decide
  · decide

/-- A table word that is the encoding of a presentable command decodes to it. -/
theorem decodeTableWord_of_encode {nbits w : Nat} {i : Instr} (hports : portsOfTableWord nbits w = encode i)
    (hwf : i.wf = true) : decodeTableWord nbits w = some i := by
  have hd : Sys2Proof.decode (encode i) = .instr i := decodeEncodeAgree idlePorts i rfl hwf
  simp only [decodeTableWord, hports, hd]

/-- Settles O15: each word is the encoding of its command with every operand at zero. -/
theorem commandCodesDecode : Obligations.CommandCodesDecode := by
  unfold Obligations.CommandCodesDecode
  exact ⟨decodeTableWord_of_encode rfl rfl, decodeTableWord_of_encode rfl rfl, decodeTableWord_of_encode rfl rfl,
    decodeTableWord_of_encode rfl rfl, decodeTableWord_of_encode rfl rfl, decodeTableWord_of_encode rfl rfl,
    decodeTableWord_of_encode rfl rfl, decodeTableWord_of_encode rfl rfl, decodeTableWord_of_encode rfl rfl,
    decodeTableWord_of_encode rfl rfl⟩

/-- Settles O16: the model's host constants are the ones of the table. -/
theorem pseudoExpansions : Obligations.PseudoExpansions := by
  unfold Obligations.PseudoExpansions
  exact ⟨fun _ => rfl, fun _ _ => rfl, fun _ _ => rfl, fun _ _ _ => rfl⟩

end Sys2Proof.Machine
end

section
/-!
The assembler's commands (R74, R75): the operands that a mnemonic takes, each number at its exact value, and what a line
comes to once its tokens are known.
-/
namespace Sys2Proof.Machine

theorem fitNumber_eq_none {w n : Nat} : fitNumber w n = none ↔ 2 ^ w ≤ n := by
  simp [fitNumber]

/-- R74, R75: what is spelled is built. -/
theorem Spells.buildCommand_eq {m : Mnemonic} {ops : List Operand} {i : Instr} (h : Spells m ops i) :
    buildCommand m ops = some i := by
  cases h <;> simp [buildCommand, expandPseudo, Config.pvReg, Config.spReg, Config.pollCount]

/-- R74, R75: a command that is built is spelled by its operands: each fitted number is the value of its port. -/
theorem spells_of_buildCommand {m : Mnemonic} {ops : List Operand} {i : Instr} (h : buildCommand m ops = some i) :
    Spells m ops i := by
  unfold buildCommand at h
  split at h <;> simp only [Option.bind_eq_some_iff, Option.map_eq_some_iff, fitNumber_eq_some, Option.some.injEq,
    reduceCtorEq] at h
  case h_1 =>
    obtain ⟨u, rfl, r, rfl, a, rfl, rfl⟩ := h
    exact .encodeRead u r a
  case h_2 =>
    obtain ⟨u, rfl, r, rfl, a, rfl, rfl⟩ := h
    exact .encodeWrite u r a
  case h_3 inp =>
    obtain ⟨u, rfl, rfl⟩ := h
    exact .decodeRead u inp
  case h_4 inp =>
    obtain ⟨u, rfl, r, rfl, a, rfl, rfl⟩ := h
    exact .decodeWrite u r a inp
  case h_5 inp =>
    obtain rfl := h
    exact .lrcCompute inp
  case h_6 inp _ =>
    obtain ⟨cc, rfl, rfl⟩ := h
    exact .lrcCheck inp cc
  case h_7 =>
    obtain ⟨b, rfl, rfl⟩ := h
    exact .hexEnc8 b
  case h_8 =>
    obtain ⟨w, rfl, rfl⟩ := h
    exact .hexEnc16 w
  case h_9 inp =>
    obtain rfl := h
    exact .hexDec8 inp
  case h_10 inp =>
    obtain rfl := h
    exact .hexDec16 inp
  case h_11 =>
    obtain ⟨u, rfl, rfl⟩ := h
    exact .pollReq u
  case h_12 inp =>
    obtain ⟨u, rfl, rfl⟩ := h
    exact .pollDecode u inp
  case h_13 =>
    obtain ⟨u, rfl, raw, rfl, rfl⟩ := h
    exact .setpointReq u raw
  case h_14 inp =>
    obtain ⟨u, rfl, raw, rfl, rfl⟩ := h
    exact .setpointAck u raw inp

theorem buildCommand_eq_some {m : Mnemonic} {ops : List Operand} {i : Instr} :
    buildCommand m ops = some i ↔ Spells m ops i :=
  ⟨spells_of_buildCommand, Spells.buildCommand_eq⟩

/-- An operand in its place: a number below what its port holds, or bytes for IN. -/
def OperandFits : Option Nat → Operand → Prop
  | some w, .num n => n < 2 ^ w
  | none, .bytes _ => True
  | _, _ => False

@[simp] theorem operandFits_num {w n : Nat} : OperandFits (some w) (.num n) ↔ n < 2 ^ w := Iff.rfl
@[simp] theorem operandFits_bytes (bs : List Byte) : OperandFits none (.bytes bs) := trivial

/-- R74: the operands that spell a command are those of its mnemonic, and every number fits its port. -/
theorem Spells.operandFits {m : Mnemonic} {ops : List Operand} {i : Instr} (h : Spells m ops i) :
    List.Forall₂ OperandFits (operandWidths m) ops := by
  cases h <;> simp only [operandWidths, List.forall₂_cons, List.forall₂_nil_left_iff, operandFits_num,
    operandFits_bytes, BitVec.isLt, and_self]

/-- R74: a number too wide for its port gives no command. -/
theorem buildCommand_of_tooWide {m : Mnemonic} {ops : List Operand} (h : SomeNumberTooWide m ops) :
    buildCommand m ops = none := by
  obtain ⟨k, w, n, hw, hn, hwide⟩ := h
  refine Option.eq_none_iff_forall_ne_some.2 fun i hi => Nat.not_lt_of_le hwide ?_
  obtain ⟨hkw, hwk⟩ := List.getElem?_eq_some_iff.1 hw
  obtain ⟨hkn, hnk⟩ := List.getElem?_eq_some_iff.1 hn
  simpa [hwk, hnk] using (spells_of_buildCommand hi).operandFits.get hkw hkn

/-- R74: a line that begins with a word is the command that the word and the operands after it build, or refused. -/
theorem assembleTokens_word (name : List Char) (ts : List Token) :
    assembleTokens (.word name :: ts) = ((mnemonicTable.lookup (String.ofList name)).bind fun m =>
      (parseOperands .first ts).bind (buildCommand m)).elim .refused .command := by
  simp only [assembleTokens]
  split
  · next h => rw [h]; rfl
  · next h => rw [h]; rfl

theorem assembleLine_of_lexLine {line : String} {ts : List Token} (h : lexLine .between line.toList = some ts) :
    assembleLine line = assembleTokens ts := by
  simp [assembleLine, h]

theorem assembleLine_of_parsed {line : String} {name : List Char} {m : Mnemonic} {ts : List Token} {ops : List Operand}
    (hlex : lexLine .between line.toList = some (.word name :: ts))
    (hname : mnemonicTable.lookup (String.ofList name) = some m) (hops : parseOperands .first ts = some ops) :
    assembleLine line = (buildCommand m ops).elim .refused .command := by
  rw [assembleLine_of_lexLine hlex, assembleTokens_word, hname, hops]
  rfl

/-- Settles O17: fitting is exact, so what is built is what is spelled, and what is spelled fits its ports. -/
theorem assemblerNeverTruncates : Obligations.AssemblerNeverTruncates := by
  unfold Obligations.AssemblerNeverTruncates
  refine ⟨fun w n => ⟨fun b hb => (fitNumber_eq_some.1 hb).symm, fitNumber_eq_none⟩, fun m ops i => buildCommand_eq_some,
    fun m ops => buildCommand_of_tooWide, fun line name m ts ops hlex hname hops hwide => ?_⟩
  rw [assembleLine_of_parsed hlex hname hops, buildCommand_of_tooWide hwide]
  rfl

end Sys2Proof.Machine
end

section
/-!
The operands of a line (R74): the parser reads exactly the token lists of `OperandListTokens`.
-/
namespace Sys2Proof.Machine

/-- R74: the words of a byte list whose numbers are these bytes. -/
def ByteWords (ws : List (List Char)) (bs : List Byte) : Prop := ws.map parseNumber = bs.map fun b => some b.toNat

theorem byteWords_nil {bs : List Byte} : ByteWords [] bs ↔ bs = [] := by
  simp [ByteWords]

theorem byteWords_cons {w : List Char} {ws : List (List Char)} {b : Byte} {bs : List Byte} :
    ByteWords (w :: ws) (b :: bs) ↔ parseNumber w = some b.toNat ∧ ByteWords ws bs := by
  simp [ByteWords]

theorem ByteWords.append_word {ws : List (List Char)} {bs : List Byte} {w : List Char} {b : Byte} (h : ByteWords ws bs)
    (hw : parseNumber w = some b.toNat) : ByteWords (ws ++ [w]) (bs ++ [b]) := by
  unfold ByteWords at h ⊢
  simp [h, hw]

/-- The tokens of a byte list between its brackets. -/
def listTokens (ws : List (List Char)) : List Token := (ws.map Token.word).intersperse .comma

theorem listTokens_append_word : ∀ {ws : List (List Char)}, ws ≠ [] → ∀ w,
    listTokens (ws ++ [w]) = listTokens ws ++ [.comma, .word w]
  | [_], _, _ => rfl
  | v :: u :: ws, _, w => congrArg (fun ts => Token.word v :: Token.comma :: ts)
    (listTokens_append_word (List.cons_ne_nil u ws) w)

/-- A number of a byte list goes on as the byte whose value it is. -/
theorem bind_byte_eq_some {w : List Char} {next : Byte → Option (List Operand)} {ops : List Operand} :
    ((parseNumber w).bind fun n => (fitNumber 8 n).bind next) = some ops ↔
      ∃ b : Byte, parseNumber w = some b.toNat ∧ next b = some ops := by
  simp [Option.bind_eq_some_iff, fitNumber_eq_some]

/-- What the operand parser has still to read at each place: tokens that complete the ones it has read to the tokens of
these operands. -/
def Completes : ParseMode → List Token → List Operand → Prop
  | .first, ts, ops => OperandListTokens ops ts
  | .next, ts, ops => ops ≠ [] ∧ OperandListTokens ops ts
  | .after, ts, ops => ∀ o ots, OperandTokens o ots → OperandListTokens (o :: ops) (ots ++ ts)
  | .listFirst, ts, ops => ops ≠ [] ∧ OperandListTokens ops (.bracketOpen :: ts)
  | .listNext bs, ts, ops => ops ≠ [] ∧ ∀ ws, ws ≠ [] → ByteWords ws bs →
    OperandListTokens ops (.bracketOpen :: listTokens ws ++ .comma :: ts)
  | .listAfter bs, ts, ops => ops ≠ [] ∧ ∀ ws, ws ≠ [] → ByteWords ws bs →
    OperandListTokens ops (.bracketOpen :: listTokens ws ++ ts)

/-- R74: wherever the parser stands, the tokens that it reads to the end complete the operands that it answers. -/
theorem completes_of_parseOperands {mode : ParseMode} {ts : List Token} {ops : List Operand}
    (h : parseOperands mode ts = some ops) : Completes mode ts ops := by
  fun_induction parseOperands mode ts generalizing ops
  -- no operand
  case case1 =>
    cases h
    exact .none
  -- the end of the line after an operand
  case case2 =>
    cases h
    exact fun o ots ho => (List.append_nil ots).symm ▸ .last ho
  -- a number first
  case case3 w ts ih =>
    obtain ⟨n, hn, h⟩ := Option.bind_eq_some_iff.1 h
    obtain ⟨os, hos, rfl⟩ := Option.map_eq_some_iff.1 h
    exact ih hos _ _ (.num hn)
  -- a number after a comma
  case case4 w ts ih =>
    obtain ⟨n, hn, h⟩ := Option.bind_eq_some_iff.1 h
    obtain ⟨os, hos, rfl⟩ := Option.map_eq_some_iff.1 h
    exact ⟨List.cons_ne_nil _ _, ih hos _ _ (.num hn)⟩
  -- a string first
  case case5 bs ts ih =>
    obtain ⟨os, hos, rfl⟩ := Option.map_eq_some_iff.1 h
    exact ih hos _ _ (.str bs)
  -- a string after a comma
  case case6 bs ts ih =>
    obtain ⟨os, hos, rfl⟩ := Option.map_eq_some_iff.1 h
    exact ⟨List.cons_ne_nil _ _, ih hos _ _ (.str bs)⟩
  -- a byte list first
  case case7 ts ih => exact (ih h).2
  -- a byte list after a comma
  case case8 ts ih => exact ih h
  -- a comma after an operand
  case case9 ts ih =>
    obtain ⟨hne, hops⟩ := ih h
    obtain ⟨o', os, rfl⟩ := List.exists_cons_of_ne_nil hne
    exact fun o ots ho => .more ho hops
  -- a byte list closed at once
  case case10 ts ih =>
    obtain ⟨os, hos, rfl⟩ := Option.map_eq_some_iff.1 h
    exact ⟨List.cons_ne_nil _ _, ih hos _ _ (.list (ws := []) rfl)⟩
  -- the first number of a byte list
  case case11 w ts ih =>
    obtain ⟨b, hw, h⟩ := bind_byte_eq_some.1 h
    obtain ⟨hne, hlist⟩ := ih b h
    exact ⟨hne, hlist [w] (List.cons_ne_nil _ _) (byteWords_cons.2 ⟨hw, rfl⟩)⟩
  -- a number after a comma of a byte list
  case case12 bs w ts ih =>
    obtain ⟨b, hw, h⟩ := bind_byte_eq_some.1 h
    obtain ⟨hne, hlist⟩ := ih b h
    refine ⟨hne, fun ws hws hbs => ?_⟩
    simpa [listTokens_append_word hws] using hlist (ws ++ [w]) (by simp) (hbs.append_word hw)
  -- a comma of a byte list
  case case13 bs ts ih => exact ih h
  -- a byte list closed
  case case14 bs ts ih =>
    obtain ⟨os, hos, rfl⟩ := Option.map_eq_some_iff.1 h
    refine ⟨List.cons_ne_nil _ _, fun ws _ hbs => ?_⟩
    simpa [listTokens] using ih hos _ _ (.list hbs)
  -- every other token is refused
  case case15 => cases h

/-- After a comma the parser reads what it reads at first, except that some operand must follow. -/
theorem parseOperands_next_cons (t : Token) (ts : List Token) :
    parseOperands .next (t :: ts) = parseOperands .first (t :: ts) := by
  cases t <;> rfl

/-- The first number of a byte list is read as the later ones are. -/
theorem parseOperands_listFirst : ∀ {ws : List (List Char)}, ws ≠ [] → ∀ ts,
    parseOperands .listFirst (listTokens ws ++ ts) = parseOperands (.listNext []) (listTokens ws ++ ts)
  | [_], _, _ => rfl
  | _ :: _ :: _, _, _ => rfl

theorem parseOperands_listNext_word {w : List Char} {b : Byte} (h : parseNumber w = some b.toNat) (bs : List Byte)
    (ts : List Token) : parseOperands (.listNext bs) (.word w :: ts) = parseOperands (.listAfter (bs ++ [b])) ts := by
  simp [parseOperands, h]

/-- R74: the numbers of a byte list are read to the bytes they are. -/
theorem parseOperands_listTokens (rest : List Token) {w : List Char} {ws : List (List Char)} {c : Byte} {cs : List Byte}
    (hw : parseNumber w = some c.toNat) (hws : ByteWords ws cs) (bs : List Byte) :
    parseOperands (.listNext bs) (listTokens (w :: ws) ++ .bracketClose :: rest) =
      (parseOperands .after rest).map (.bytes (bs ++ c :: cs) :: ·) := by
  induction ws generalizing w c cs bs with
  | nil =>
    obtain rfl := byteWords_nil.1 hws
    exact parseOperands_listNext_word hw bs _
  | cons v ws ih =>
    obtain _ | ⟨d, cs⟩ := cs
    · cases hws
    obtain ⟨hv, hws⟩ := byteWords_cons.1 hws
    calc parseOperands (.listNext bs) (listTokens (w :: v :: ws) ++ .bracketClose :: rest)
      _ = parseOperands (.listNext (bs ++ [c])) (listTokens (v :: ws) ++ .bracketClose :: rest) :=
        parseOperands_listNext_word hw bs _
      _ = (parseOperands .after rest).map (.bytes (bs ++ c :: d :: cs) :: ·) := by
        simpa using ih hv hws (bs ++ [c])

/-- R74: the tokens of an operand are read to that operand. -/
theorem parseOperands_operandTokens {o : Operand} {ts : List Token} (h : OperandTokens o ts) (rest : List Token) :
    parseOperands .first (ts ++ rest) = (parseOperands .after rest).map (o :: ·) := by
  cases h with
  | num hn => simp [parseOperands, hn]
  | str bs => rfl
  | @list bs ws hbs =>
    cases ws with
    | nil =>
      obtain rfl := byteWords_nil.1 hbs
      rfl
    | cons w ws =>
      obtain _ | ⟨b, bs⟩ := bs
      · cases hbs
      obtain ⟨hw, hws⟩ := byteWords_cons.1 hbs
      calc parseOperands .first (.bracketOpen :: listTokens (w :: ws) ++ [.bracketClose] ++ rest)
        _ = parseOperands .listFirst (listTokens (w :: ws) ++ .bracketClose :: rest) := by simp [parseOperands]
        _ = parseOperands (.listNext []) (listTokens (w :: ws) ++ .bracketClose :: rest) :=
          parseOperands_listFirst (List.cons_ne_nil w ws) _
        _ = (parseOperands .after rest).map (.bytes (b :: bs) :: ·) := parseOperands_listTokens rest hw hws []

/-- R74: the tokens of operands with commas between are read to those operands. -/
theorem parseOperands_operandListTokens {ops : List Operand} {ts : List Token} (h : OperandListTokens ops ts) :
    parseOperands .first ts = some ops := by
  induction h with
  | none => rfl
  | @last o ts ho => simpa [parseOperands] using parseOperands_operandTokens ho []
  | @more o o' os ts rest ho _ ih =>
    cases rest with
    | nil => cases ih
    | cons t rest =>
      have hnext : parseOperands .after (.comma :: t :: rest) = some (o' :: os) := (parseOperands_next_cons t rest).trans ih
      rw [parseOperands_operandTokens ho, hnext, Option.map_some]

theorem parseOperands_first_eq_some {ts : List Token} {ops : List Operand} :
    parseOperands .first ts = some ops ↔ OperandListTokens ops ts :=
  ⟨completes_of_parseOperands, parseOperands_operandListTokens⟩

end Sys2Proof.Machine
end

section
/-!
What each line comes to (R74): from its tokens to a command, a blank line or a refusal.
-/
namespace Sys2Proof.Machine

/-- R74: a line is a command exactly when its first token is a mnemonic and the operands after it spell the command. -/
theorem assembleTokens_eq_command {ts : List Token} {i : Instr} : assembleTokens ts = .command i ↔
    ∃ name m rest ops, ts = .word name :: rest ∧ mnemonicTable.lookup (String.ofList name) = some m ∧
      OperandListTokens ops rest ∧ Spells m ops i := by
  have helim : ∀ x : Option Instr, x.elim .refused AsmLine.command = .command i ↔ x = some i := by
    rintro (_ | _) <;> simp
  obtain _ | ⟨t, ts⟩ := ts
  · simp [assembleTokens]
  cases t with
  | word name =>
    simp [assembleTokens_word, helim, Option.bind_eq_some_iff, parseOperands_first_eq_some, buildCommand_eq_some]
  | _ => simp [assembleTokens]

theorem assembleTokens_eq_blank {ts : List Token} : assembleTokens ts = .blank ↔ ts = [] := by
  obtain _ | ⟨t, ts⟩ := ts
  · simp [assembleTokens]
  cases t with
  | word name =>
    rw [assembleTokens_word]
    cases ((mnemonicTable.lookup (String.ofList name)).bind fun m => (parseOperands .first ts).bind (buildCommand m)) <;>
      simp
  | _ => simp [assembleTokens]

/-- A line that is not refused has tokens, and is what they are. -/
theorem assembleLine_eq {line : String} {a : AsmLine} (ha : a ≠ .refused) :
    assembleLine line = a ↔ ∃ ts, lexLine .between line.toList = some ts ∧ assembleTokens ts = a := by
  unfold assembleLine
  cases lexLine .between line.toList with
  | none => simpa using ha.symm
  | some ts => simp

/-- Settles O54: the operand parser reads exactly the operands' tokens, and what is built is what they spell. -/
theorem assemblerLinesExactly : Obligations.AssemblerLinesExactly := by
  unfold Obligations.AssemblerLinesExactly
  refine ⟨fun line i => ?_, fun line => ?_⟩
  · simp only [assembleLine_eq (a := .command i) nofun, assembleTokens_eq_command]
    constructor
    · rintro ⟨_, hlex, name, m, ts, ops, rfl, h⟩
      exact ⟨name, m, ts, ops, hlex, h⟩
    · rintro ⟨name, m, ts, ops, hlex, h⟩
      exact ⟨_, hlex, name, m, ts, ops, rfl, h⟩
  · simp [assembleLine_eq (a := .blank) nofun, assembleTokens_eq_blank]

end Sys2Proof.Machine
end

section
/-!
The numbers of a line (R74): digit characters, what they are read to in either base, and the line of a single number.
-/
namespace Sys2Proof.Machine

/-- The characters of the digits below 16: word characters, no `x`, and read back as the digit. -/
theorem digitChar_props : ∀ d < 16, charKind d.digitChar = .wordChar ∧ d.digitChar ≠ 'x' ∧ d.digitChar.toNat < 128 ∧
    digitval (BitVec.ofNat 8 d.digitChar.toNat) = some d := by
  decide

theorem charDigit_digitChar {base d : Nat} (hbase : base ≤ 16) (hd : d < base) :
    charDigit base d.digitChar = some d := by
  obtain ⟨-, -, hascii, hval⟩ := digitChar_props d (hd.trans_le hbase)
  simp [charDigit, hascii, hval, hd]

/-- Digits are read to the number they write. -/
theorem digitsFrom_digitChars {base : Nat} (hbase : base ≤ 16) {ds : List Nat} (hds : ∀ d ∈ ds, d < base) (acc : Nat) :
    digitsFrom base acc (ds.map Nat.digitChar) = some (ds.foldl (fun acc d => acc * base + d) acc) := by
  induction ds generalizing acc with
  | nil => rfl
  | cons d ds ih =>
    obtain ⟨hd, hds⟩ := List.forall_mem_cons.1 hds
    simp [digitsFrom, charDigit_digitChar hbase hd, ih hds]

/-- R74: what does not begin with `0x` is read in base ten. -/
theorem parseNumber_decimal {cs : List Char} (hne : cs ≠ []) (hx : 'x' ∉ cs) : parseNumber cs = digitsFrom 10 0 cs := by
  unfold parseNumber
  split
  · contradiction
  · simp at hx
  · simp at hx
  · rfl

theorem parseNumber_hex {cs : List Char} (hne : cs ≠ []) : parseNumber ('0' :: 'x' :: cs) = digitsFrom 16 0 cs := by
  cases cs with
  | nil => contradiction
  | cons c cs => rfl

theorem parseNumber_decimal_digits {ds : List Nat} (hne : ds ≠ []) (hds : ∀ d ∈ ds, d < 10) :
    parseNumber (ds.map Nat.digitChar) = some (digitsValue 10 ds) := by
  have hx : 'x' ∉ ds.map Nat.digitChar := by
    intro hmem
    obtain ⟨d, hd, hchar⟩ := List.mem_map.1 hmem
    exact (digitChar_props d ((hds d hd).trans (by decide))).2.1 hchar
  rw [parseNumber_decimal (by simpa using hne) hx]
  exact digitsFrom_digitChars (by decide) hds 0

theorem parseNumber_hex_digits {ds : List Nat} (hne : ds ≠ []) (hds : ∀ d ∈ ds, d < 16) :
    parseNumber ('0' :: 'x' :: ds.map Nat.digitChar) = some (digitsValue 16 ds) := by
  rw [parseNumber_hex (by simpa using hne)]
  exact digitsFrom_digitChars (by decide) hds 0

/-- R74: word characters that end a line are its last token. -/
theorem lexLine_word {cs : List Char} (hne : cs ≠ []) (hcs : ∀ c ∈ cs, charKind c = .wordChar) :
    lexLine .between cs = some [.word cs] := by
  obtain ⟨c, cs, rfl⟩ := List.exists_cons_of_ne_nil hne
  obtain ⟨hc, hcs⟩ := List.forall_mem_cons.1 hcs
  simp [lexLine, lexOutside, hc, lexLine_inWord cs [c] hcs]

/-- The mnemonic is the first token of its line. -/
theorem lexLine_hexEnc16 (cs : List Char) : lexLine .between ("HEX_ENC16 ".toList ++ cs) =
    (lexLine .between cs).map (.word "HEX_ENC16".toList :: ·) := rfl

/-- R74: a HEX_ENC16 line with a number gives the command of that number, or is refused where it does not fit. -/
theorem assembleLine_hexEnc16 {cs : List Char} {n : Nat} (hne : cs ≠ []) (hcs : ∀ c ∈ cs, charKind c = .wordChar)
    (hn : parseNumber cs = some n) : assembleLine (String.ofList ("HEX_ENC16 ".toList ++ cs)) =
      if n < 65536 then .command (.hexEnc16 (BitVec.ofNat 16 n)) else .refused := by
  have hlex : lexLine .between (String.ofList ("HEX_ENC16 ".toList ++ cs)).toList =
      some [.word "HEX_ENC16".toList, .word cs] := by
    rw [String.toList_ofList, lexLine_hexEnc16, lexLine_word hne hcs]
    rfl
  have hname : mnemonicTable.lookup (String.ofList "HEX_ENC16".toList) = some (.command .hexEnc16) := by decide
  have hops : parseOperands .first [.word cs] = some [.num n] := parseOperands_operandListTokens (.last (.num hn))
  rw [assembleLine_of_parsed hlex hname hops]
  simp only [buildCommand, fitNumber, Nat.reducePow]
  split <;> rfl

theorem charKind_digitChars {ds : List Nat} (hds : ∀ d ∈ ds, d < 16) :
    ∀ c ∈ ds.map Nat.digitChar, charKind c = .wordChar := by
  intro c hc
  obtain ⟨d, hd, rfl⟩ := List.mem_map.1 hc
  exact (digitChar_props d (hds d hd)).1

/-- Settles O55: the digits are one word of the line, whose number is theirs in either base. -/
theorem assemblerReadsNumbersExactly : Obligations.AssemblerReadsNumbersExactly := by
  unfold Obligations.AssemblerReadsNumbersExactly
  refine fun ds hne => ⟨fun hds => ?_, fun hds => ?_⟩
  · exact assembleLine_hexEnc16 (by simpa using hne) (charKind_digitChars fun d hd => (hds d hd).trans (by decide))
      (parseNumber_decimal_digits hne hds)
  · exact assembleLine_hexEnc16 (cs := '0' :: 'x' :: ds.map Nat.digitChar) (List.cons_ne_nil _ _)
      (List.forall_mem_cons.2 ⟨by decide, List.forall_mem_cons.2 ⟨by decide, charKind_digitChars hds⟩⟩)
      (parseNumber_hex_digits hne hds)

end Sys2Proof.Machine
end

section
/-!
Hex digits and hex text (R100-R105, R110): which characters are digits, the digits that a value is written with, and the
value that a text of digits is read to.
-/
namespace Sys2Proof.Machine

/-- A table that lists the digits in the order of their values gives each digit's value by its place. -/
theorem digitval_of_getElem? {table : List Byte} (htable : table.map digitval = (List.range 16).map some) {c : Byte}
    {d : Nat} (h : table[d]? = some c) : digitval c = some d := by
  have hplace : (table.map digitval)[d]? = some (digitval c) := by rw [List.getElem?_map, h, Option.map_some]
  rw [htable] at hplace
  obtain ⟨hd, hval⟩ := List.getElem?_eq_some_iff.1 hplace
  simpa using hval.symm

theorem map_digitval_upperHexDigits : upperHexDigits.map digitval = (List.range 16).map some := by decide

theorem map_digitval_lowerHexDigits : lowerHexDigits.map digitval = (List.range 16).map some := by decide

/-- R103: a digit stands in one of the two tables at the place of its value. -/
theorem mem_hexDigits_of_digitval : ∀ c : Byte, ∀ d ∈ digitval c,
    upperHexDigits[d]? = some c ∨ lowerHexDigits[d]? = some c := by
  set_option maxRecDepth 4000 in decide

theorem digitval_eq_some {c : Byte} {d : Nat} :
    digitval c = some d ↔ upperHexDigits[d]? = some c ∨ lowerHexDigits[d]? = some c := by
  refine ⟨mem_hexDigits_of_digitval c d, ?_⟩
  rintro (h | h)
  · exact digitval_of_getElem? map_digitval_upperHexDigits h
  · exact digitval_of_getElem? map_digitval_lowerHexDigits h

/-- Settles O21: the digits are those of the two tables, and the 256 byte values are counted. -/
theorem hexDigitValues : Obligations.HexDigitValues := by
  unfold Obligations.HexDigitValues
  refine ⟨fun c d => digitval_eq_some, ?_⟩
  set_option maxRecDepth 4000 in decide

/-- R100: the digit of a nibble stands in the table at the nibble's value. -/
theorem upperHexDigits_of_toNat {v : BitVec 4} {n : Nat} (h : v.toNat = n) :
    upperHexDigits[n]? = some (hexdigit v) := by
  have table : ∀ v : BitVec 4, upperHexDigits[v.toNat]? = some (hexdigit v) := by decide
  exact h ▸ table v

/-- R9: a nibble of a value, by its lowest bit. -/
theorem toNat_nibble {w : Nat} (v : BitVec w) (k : Nat) : (v.extractLsb' k 4).toNat = v.toNat / 2 ^ k % 16 := by
  simp [Nat.shiftRight_eq_div_pow]

theorem toNat_highNibble (b : Byte) : (b.extractLsb' 4 4).toNat = b.toNat / 16 := by
  have := b.isLt
  rw [toNat_nibble]
  omega

theorem toNat_topNibble (w : Word) : (w.extractLsb' 12 4).toNat = w.toNat / 4096 := by
  have := w.isLt
  rw [toNat_nibble]
  omega

theorem toNat_lowNibble {w : Nat} (v : BitVec w) : (v.extractLsb' 0 4).toNat = v.toNat % 16 := by
  rw [toNat_nibble, Nat.pow_zero, Nat.div_one]

/-- R105: hex text has a value exactly when every character is a digit, and it is the value of the digits. -/
theorem hexvalFrom_eq_some {s : List Byte} {acc v : Nat} : hexvalFrom acc s = some v ↔
    ∃ ds : List Nat, s.map digitval = ds.map some ∧ ds.foldl (fun acc d => acc * 16 + d) acc = v := by
  induction s generalizing acc with
  | nil => simp [hexvalFrom]
  | cons c s ih =>
    cases hc : digitval c with
    | none =>
      refine iff_of_false (by simp [hexvalFrom, hc]) ?_
      rintro ⟨_ | ⟨d, ds⟩, hds, -⟩ <;> simp [hc] at hds
    | some d =>
      simp only [hexvalFrom, hc, ih]
      constructor
      · rintro ⟨ds, hds, hv⟩
        exact ⟨d :: ds, by simp [hc, hds], hv⟩
      · rintro ⟨_ | ⟨e, ds⟩, hds, hv⟩
        · simp at hds
        · obtain ⟨hd, hs⟩ : d = e ∧ s.map digitval = ds.map some := by simpa [hc] using hds
          exact ⟨ds, hs, hd ▸ hv⟩

theorem hexval_eq_some {s : List Byte} {v : Nat} :
    hexval s = some v ↔ ∃ ds, s.map digitval = ds.map some ∧ digitsValue 16 ds = v :=
  hexvalFrom_eq_some

theorem hexval_of_digits {s : List Byte} {ds : List Nat} (h : s.map digitval = ds.map some) :
    hexval s = some (digitsValue 16 ds) :=
  hexval_eq_some.2 ⟨ds, h, rfl⟩

theorem hexval_of_nonDigit {s : List Byte} (h : ∃ c ∈ s, digitval c = none) : hexval s = none := by
  obtain ⟨c, hmem, hc⟩ := h
  refine Option.eq_none_iff_forall_ne_some.2 fun v hv => ?_
  obtain ⟨ds, hds, -⟩ := hexval_eq_some.1 hv
  have hnone : none ∈ ds.map some := hds ▸ List.mem_map.2 ⟨c, hmem, hc⟩
  simp at hnone

theorem digitsValue_two (x y : Nat) : digitsValue 16 [x, y] = 16 * x + y := by
  simp only [digitsValue, List.foldl]
  omega

theorem digitsValue_four (x y z t : Nat) : digitsValue 16 [x, y, z, t] = 4096 * x + 256 * y + 16 * z + t := by
  simp only [digitsValue, List.foldl]
  omega

/-- R110: the text of a byte is read back to the byte. -/
theorem hexval_hex2 (b : Byte) : hexval (hex2 b) = some b.toNat := by
  have hdigits : (hex2 b).map digitval = [b.toNat / 16, b.toNat % 16].map some := by
    simp only [hex2, List.map, digitval_hexdigit, toNat_highNibble, toNat_lowNibble]
  rw [hexval_of_digits hdigits, digitsValue_two]
  congr 1
  omega

/-- R110: the text of a word is read back to the word. -/
theorem hexval_hex4 (w : Word) : hexval (hex4 w) = some w.toNat := by
  have hdigits : (hex4 w).map digitval =
      [w.toNat / 4096, w.toNat / 256 % 16, w.toNat / 16 % 16, w.toNat % 16].map some := by
    simp only [hex4, List.map, digitval_hexdigit, toNat_topNibble, toNat_nibble w 8, toNat_nibble w 4, toNat_lowNibble,
      Nat.reducePow]
  rw [hexval_of_digits hdigits, digitsValue_four]
  congr 1
  omega

/-- R110: values that are read back from their texts have different texts. -/
theorem injective_of_hexval {w : Nat} {text : BitVec w → List Byte} (h : ∀ v, hexval (text v) = some v.toNat) :
    Function.Injective text := by
  intro v v' heq
  apply BitVec.eq_of_toNat_eq
  apply Option.some.inj
  rw [← h, heq, h]

/-- R110: two digits are the text of their value, up to case. -/
theorem hex2_of_hexval {s : List Byte} {v : Nat} (hlen : s.length = 2) (h : hexval s = some v) :
    v < 256 ∧ hex2 (BitVec.ofNat 8 v) = fold s := by
  obtain ⟨a, b, rfl⟩ := List.length_eq_two.1 hlen
  obtain ⟨ds, hds, rfl⟩ := hexval_eq_some.1 h
  obtain ⟨x, y, rfl⟩ : ∃ x y, ds = [x, y] := List.length_eq_two.1 (by simpa using (congrArg List.length hds).symm)
  obtain ⟨ha, hb⟩ : digitval a = some x ∧ digitval b = some y := by simpa using hds
  have hx := digitval_lt ha
  have hy := digitval_lt hb
  rw [digitsValue_two]
  refine ⟨by omega, ?_⟩
  rw [hex2_of_nibbles (x := x) hy (by omega), ← foldByte_of_digitval ha, ← foldByte_of_digitval hb]
  rfl

/-- Settles O26: both texts are read back, which makes them injective, and two digits are rewritten in uppercase. -/
theorem hexRoundTripLaws : Obligations.HexRoundTripLaws := by
  unfold Obligations.HexRoundTripLaws
  exact ⟨hexval_hex2, hexval_hex4, fun s v => hex2_of_hexval, injective_of_hexval hexval_hex2,
    injective_of_hexval hexval_hex4⟩

end Sys2Proof.Machine
end

section
/-!
The codec commands (R106-R109): the operands their codes take, and the latch each leaves.
-/
namespace Sys2Proof.Machine

/-- R71: presentable ports with a command's code decode to that command on the ports it takes. -/
theorem decode_of_code {p : Ports} (hwf : p.wf = true) {op : Opcode} (hcmd : p.cmd = opcodeCode op) :
    Sys2Proof.decode p = .instr (operandsOf p op) := by
  have assigned : opcodeOf (opcodeCode op) = some op := by cases op <;> rfl
  exact decode_of_opcode hwf (hcmd ▸ assigned)

/-- Settles O22: the code takes the low byte of ARG, and its text is the digits of its two nibbles. -/
theorem hexEnc8Result : Obligations.HexEnc8Result := by
  unfold Obligations.HexEnc8Result
  refine ⟨fun p hwf hcmd => ⟨_, decode_of_code (op := .hexEnc8) hwf hcmd, by simp⟩, fun b s => ?_⟩
  exact ⟨_, _, upperHexDigits_of_toNat (toNat_highNibble b), upperHexDigits_of_toNat (toNat_lowNibble b),
    exec_eq_setResult_report (.hexEnc8 b) s⟩

/-- Settles O23: the code takes ARG, and its text is the digits of its four nibbles. -/
theorem hexEnc16Result : Obligations.HexEnc16Result := by
  unfold Obligations.HexEnc16Result
  refine ⟨fun p hwf hcmd => decode_of_code (op := .hexEnc16) hwf hcmd, fun w s => ?_⟩
  exact ⟨_, _, _, _, upperHexDigits_of_toNat (toNat_topNibble w), upperHexDigits_of_toNat (toNat_nibble w 8),
    upperHexDigits_of_toNat (toNat_nibble w 4), upperHexDigits_of_toNat (toNat_lowNibble w),
    exec_eq_setResult_report (.hexEnc16 w) s⟩

/-- R108, R109: digits of the right number are parsed to their value. -/
theorem parseHex_of_digits {k : Nat} {inp : List Byte} {ds : List Nat} (hlen : inp.length = k)
    (hds : inp.map digitval = ds.map some) : parseHex k inp = .ok (digitsValue 16 ds) := by
  simp [parseHex, hlen, hexval_of_digits hds]

/-- R108, R109: any other length and any other character is malformed. -/
theorem parseHex_malformed {k : Nat} {inp : List Byte} (h : inp.length ≠ k ∨ ∃ c ∈ inp, digitval c = none) :
    parseHex k inp = .error .malformedReply := by
  unfold parseHex
  split
  · rfl
  · next hlen => rw [hexval_of_nonDigit (h.resolve_left hlen)]

/-- R108: HEX_DEC8 leaves what its input is parsed to. -/
theorem exec_hexDec8 {inp : List Byte} {x : Except Status Nat} (h : parseHex 2 inp = x) (s : State) :
    exec (.hexDec8 inp) s = .next (setResult (resultOf (x.map fun v => .byte (BitVec.ofNat 8 v))) s) :=
  h ▸ exec_eq_setResult_report (.hexDec8 inp) s

/-- R109: HEX_DEC16 leaves what its input is parsed to. -/
theorem exec_hexDec16 {inp : List Byte} {x : Except Status Nat} (h : parseHex 4 inp = x) (s : State) :
    exec (.hexDec16 inp) s = .next (setResult (resultOf (x.map fun v => .word (BitVec.ofNat 16 v))) s) :=
  h ▸ exec_eq_setResult_report (.hexDec16 inp) s

/-- Settles O24: two digits are parsed to their value, which a byte holds; every other input is malformed. -/
theorem hexDec8Result : Obligations.HexDec8Result := by
  unfold Obligations.HexDec8Result
  refine ⟨fun p hwf hcmd => decode_of_code (op := .hexDec8) hwf hcmd, fun s a b x y ha hb => ?_,
    fun s inp h => exec_hexDec8 (parseHex_malformed h) s⟩
  have hparse : parseHex 2 [a, b] = .ok (16 * x + y) := by
    rw [← digitsValue_two]
    exact parseHex_of_digits rfl (by simp [ha, hb])
  have hfits : 16 * x + y < 2 ^ 8 := by
    have hx := digitval_lt ha
    have hy := digitval_lt hb
    omega
  exact ⟨_, by rw [BitVec.toNat_ofNat, Nat.mod_eq_of_lt hfits], exec_hexDec8 hparse s⟩

/-- Settles O25: four digits are parsed to their value, which a word holds; every other input is malformed. -/
theorem hexDec16Result : Obligations.HexDec16Result := by
  unfold Obligations.HexDec16Result
  refine ⟨fun p hwf hcmd => decode_of_code (op := .hexDec16) hwf hcmd, fun s a b c d x y z t ha hb hc hd => ?_,
    fun s inp h => exec_hexDec16 (parseHex_malformed h) s⟩
  have hparse : parseHex 4 [a, b, c, d] = .ok (4096 * x + 256 * y + 16 * z + t) := by
    rw [← digitsValue_four]
    exact parseHex_of_digits rfl (by simp [ha, hb, hc, hd])
  have hfits : 4096 * x + 256 * y + 16 * z + t < 2 ^ 16 := by
    have hx := digitval_lt ha
    have hy := digitval_lt hb
    have hz := digitval_lt hc
    have ht := digitval_lt hd
    omega
  exact ⟨_, by rw [BitVec.toNat_ofNat, Nat.mod_eq_of_lt hfits], exec_hexDec16 hparse s⟩

end Sys2Proof.Machine
end

section
/-!
The checksum (R120, R123, R124): it is the residue that completes the sum of the body, so it sees that sum mod 256 and
nothing else of the body.
-/
namespace Sys2Proof.Machine

theorem byteSum_eq_sum (s : List Byte) : byteSum s = (s.map BitVec.toNat).sum := by
  induction s with
  | nil => rfl
  | cons b s ih => rw [byteSum, ih, List.map_cons, List.sum_cons]

/-- R120: the formula's value fits a byte. -/
theorem toNat_lrc (s : List Byte) : (lrc s).toNat = (256 - (s.map BitVec.toNat).sum % 256) % 256 := by
  rw [lrc, byteSum_eq_sum, BitVec.toNat_ofNat, Nat.mod_mod]

/-- R120: a byte is the checksum exactly when it has the formula's value. -/
theorem lrc_eq_iff_toNat {s : List Byte} {c : Byte} :
    lrc s = c ↔ c.toNat = (256 - (s.map BitVec.toNat).sum % 256) % 256 := by
  rw [← BitVec.toNat_inj, toNat_lrc, eq_comm]

/-- R123: a byte is the checksum exactly when it completes the sum to a multiple of 256. -/
theorem lrc_eq_iff_sum {s : List Byte} {c : Byte} :
    lrc s = c ↔ ((s.map BitVec.toNat).sum + c.toNat) % 256 = 0 := by
  have := c.isLt
  rw [lrc_eq_iff_toNat]
  omega

/-- R124: bodies have one checksum exactly when their sums agree mod 256. -/
theorem lrc_eq_lrc_iff {s t : List Byte} :
    lrc s = lrc t ↔ (s.map BitVec.toNat).sum % 256 = (t.map BitVec.toNat).sum % 256 := by
  rw [lrc_eq_iff_toNat, toNat_lrc]
  omega

/-- R124: a byte of the body may be exchanged for no other. -/
theorem lrc_replace_inj {front back : List Byte} {x y : Byte} :
    lrc (front ++ x :: back) = lrc (front ++ y :: back) ↔ x = y := by
  have := x.isLt
  have := y.isLt
  rw [lrc_eq_lrc_iff, ← BitVec.toNat_inj]
  simp only [List.map_append, List.map_cons, List.sum_append, List.sum_cons]
  omega

/-- R124: the sum does not depend on the order of the bytes. -/
theorem lrc_perm {s t : List Byte} (h : s.Perm t) : lrc s = lrc t := by
  rw [lrc_eq_lrc_iff, (h.map BitVec.toNat).sum_eq]

/-- R124: two bytes may be exchanged for two of the same sum mod 256. -/
theorem lrc_replace_two {front middle back : List Byte} {x y x' y' : Byte}
    (h : (x.toNat + y.toNat) % 256 = (x'.toNat + y'.toNat) % 256) :
    lrc (front ++ x :: middle ++ y :: back) = lrc (front ++ x' :: middle ++ y' :: back) := by
  rw [lrc_eq_lrc_iff]
  simp only [List.map_append, List.map_cons, List.sum_append, List.sum_cons]
  omega

/-- Settles O29: `lrc_eq_iff_sum` at the checksum itself and at any byte. -/
theorem lrcZeroSum : Obligations.LrcZeroSum := by
  unfold Obligations.LrcZeroSum
  exact fun s => ⟨lrc_eq_iff_sum.1 rfl, fun c hc => (lrc_eq_iff_sum.2 hc).symm⟩

end Sys2Proof.Machine
end

section
/-!
The LRC commands (R121, R122) and what LRC_CHECK detects (R124), the declared checksum given as a byte or as text.
-/
namespace Sys2Proof.Machine

/-- R122: a declared checksum that is the recomputed one is accepted. -/
theorem exec_lrcCheck_match {inp : List Byte} {cc : Byte} (h : lrc inp = cc) (s : State) :
    exec (.lrcCheck inp cc) s = .next (setResult (.ok .checked) s) := by
  rw [exec_eq_setResult_report, reportOf, if_pos h, resultOf]

/-- R122: any other declared checksum is a mismatch. -/
theorem exec_lrcCheck_mismatch {inp : List Byte} {cc : Byte} (h : lrc inp ≠ cc) (s : State) :
    exec (.lrcCheck inp cc) s = .next (setResult (.err .checksumMismatch) s) := by
  rw [exec_eq_setResult_report, reportOf, if_neg h, resultOf]

/-- Settles O27: the code takes IN, and the reported byte is the formula's value. -/
theorem lrcComputeResult : Obligations.LrcComputeResult := by
  unfold Obligations.LrcComputeResult
  refine ⟨fun p hwf hcmd => decode_of_code (op := .lrcCompute) hwf hcmd, fun inp s => ?_⟩
  exact ⟨lrc inp, toNat_lrc inp, exec_eq_setResult_report (.lrcCompute inp) s⟩

/-- Settles O28: the code takes IN and the low byte of ARG, which is compared with the formula's value. -/
theorem lrcCheckResult : Obligations.LrcCheckResult := by
  unfold Obligations.LrcCheckResult
  refine ⟨fun p hwf hcmd => ⟨_, decode_of_code (op := .lrcCheck) hwf hcmd, by simp⟩,
    fun inp cc s => ⟨fun h => ?_, fun h => ?_⟩⟩
  · exact exec_lrcCheck_match (lrc_eq_iff_toNat.2 h) s
  · exact exec_lrcCheck_mismatch (mt lrc_eq_iff_toNat.1 h) s

/-- R105: hex text is read by the values of its characters alone. -/
theorem hexval_congr {s t : List Byte} (h : s.map digitval = t.map digitval) : hexval s = hexval t := by
  ext v
  rw [hexval_eq_some, hexval_eq_some, h]

theorem map_digitval_fold (s : List Byte) : (fold s).map digitval = s.map digitval := by
  simp [fold, digitval_foldByte]

/-- R110: two pairs of digits of one value have the same digit values. -/
theorem map_digitval_eq_of_hexval {s t : List Byte} {v : Nat} (hs : s.length = 2) (ht : t.length = 2)
    (hsv : hexval s = some v) (htv : hexval t = some v) : s.map digitval = t.map digitval := by
  obtain ⟨-, hfs⟩ := hex2_of_hexval hs hsv
  obtain ⟨-, hft⟩ := hex2_of_hexval ht htv
  rw [← map_digitval_fold s, ← map_digitval_fold t, ← hfs, ← hft]

/-- R124: a checksum declared with other digit values than the recomputed one has is a mismatch. -/
theorem exec_lrcCheck_otherDigits {body text text' : List Byte} {v : Nat} (hlen : text.length = 2)
    (hlen' : text'.length = 2) (hlrc : hexval text = some (lrc body).toNat) (hv : hexval text' = some v)
    (hdigits : text.map digitval ≠ text'.map digitval) (s : State) :
    exec (.lrcCheck body (BitVec.ofNat 8 v)) s = .next (setResult (.err .checksumMismatch) s) := by
  refine exec_lrcCheck_mismatch (fun heq => hdigits ?_) s
  obtain ⟨hfits, -⟩ := hex2_of_hexval hlen' hv
  rw [heq, BitVec.toNat_ofNat, Nat.mod_eq_of_lt hfits] at hlrc
  exact map_digitval_eq_of_hexval hlen hlen' hlrc hv

/-- Settles O30: the checksum sees the body's sum mod 256, and the declared text is seen by its digit values. -/
theorem lrcDetection : Obligations.LrcDetection := by
  unfold Obligations.LrcDetection
  refine ⟨fun front back x y hxy => mt lrc_replace_inj.1 hxy, fun body cc s hcc => exec_lrcCheck_mismatch hcc.symm s,
    fun body a b c v s hlrc hdigit hv => ?_, fun body a b c v s hlrc hdigit hv => ?_, fun a b c hcase => ?_,
    fun a b c hcase => ?_, fun s t => lrc_perm, fun front middle back x y x' y' => lrc_replace_two⟩
  · exact exec_lrcCheck_otherDigits rfl rfl hlrc hv (by simpa using hdigit.symm) s
  · exact exec_lrcCheck_otherDigits rfl rfl hlrc hv (by simpa using hdigit.symm) s
  · exact hexval_congr (by simp [hcase])
  · exact hexval_congr (by simp [hcase])

end Sys2Proof.Machine
end

section
/-!
The request builder (R140-R145): a frame is the text of its body's bytes and of their checksum between its marks, and its
four fields stand in places of fixed width, so that the frame determines them.
-/
namespace Sys2Proof.Machine

/-! The frame as text of bytes (R63, R64, R142). -/

/-- R9: a nibble of one of a word's bytes is the word's own nibble at that place. -/
theorem nibble_extractLsb' {w k i : Nat} (v : BitVec w) (hi : i + 4 ≤ 8) :
    (v.extractLsb' k 8).extractLsb' i 4 = v.extractLsb' (k + i) 4 := by
  ext j hj
  simp only [BitVec.getElem_extractLsb', BitVec.getLsbD_extractLsb', Nat.add_assoc]
  simp only [show i + j < 8 by omega, decide_true, Bool.true_and]

/-- R9, R102: the text of a word is the text of its two bytes. -/
theorem hex4_eq_hex2_append (w : Word) : hex4 w = hex2 (hi8 w) ++ hex2 (lo8 w) := by
  simp [hex4, hex2, hi8, lo8, nibble_extractLsb']

/-- R140, R141: `body_txt` is the text of the bytes of `body_bin`. -/
theorem bodyTxt_eq_flatMap_bodyBin (unit fc : Byte) (r a : Word) :
    bodyTxt unit fc r a = (bodyBin unit fc r a).flatMap hex2 := by
  simp [bodyTxt, bodyBin, hex4_eq_hex2_append]

theorem requestFrame_eq_flatMap (unit fc : Byte) (r a : Word) : requestFrame unit fc r a =
    [0x3A] ++ (bodyBin unit fc r a).flatMap hex2 ++ hex2 (lrc (bodyBin unit fc r a)) ++ [0x0D, 0x0A] := by
  rw [requestFrame, bodyTxt_eq_flatMap_bodyBin, chColon, chCR, chLF]

theorem hex2_subset_upperHexDigits (b : Byte) : hex2 b ⊆ upperHexDigits := by
  have hdigit : ∀ v : BitVec 4, hexdigit v ∈ upperHexDigits := by decide
  simp [hex2, hdigit]

/-- R142: the text of any bytes, between the marks, is a RawFrame. -/
theorem rawFrame_flatMap_hex2 (bytes : List Byte) : RawFrame ([0x3A] ++ bytes.flatMap hex2 ++ [0x0D, 0x0A]) := by
  refine ⟨bytes.flatMap hex2, rfl, by simp [List.length_flatMap], fun c hc => ?_⟩
  obtain ⟨b, -, hcb⟩ := List.mem_flatMap.1 hc
  exact hex2_subset_upperHexDigits b hcb

theorem rawFrame_requestFrame (unit fc : Byte) (r a : Word) : RawFrame (requestFrame unit fc r a) := by
  have h := rawFrame_flatMap_hex2 (bodyBin unit fc r a ++ [lrc (bodyBin unit fc r a)])
  rwa [List.flatMap_append, List.flatMap_singleton, ← List.append_assoc, ← requestFrame_eq_flatMap] at h

/-! The frame field by field (R140, R141, R143). -/

theorem requestFrame_eq_append (unit fc : Byte) (r a : Word) : requestFrame unit fc r a =
    [0x3A] ++ hex2 unit ++ hex2 fc ++ hex4 r ++ hex4 a ++ hex2 (lrc (bodyBin unit fc r a)) ++ [0x0D, 0x0A] := by
  simp only [requestFrame, bodyTxt, chColon, chCR, chLF, List.append_assoc]

theorem hex2_fcRead : hex2 fcRead = [0x30, 0x33] := by decide

theorem hex2_fcWrite : hex2 fcWrite = [0x30, 0x36] := by decide

/-- R110: texts of one width that are read back to their values stand apart from what follows them. -/
theorem append_inj_of_hexval {w k : Nat} {text : BitVec w → List Byte} (hread : ∀ v, hexval (text v) = some v.toNat)
    (hlen : ∀ v, (text v).length = k) {v v' : BitVec w} {s s' : List Byte} :
    text v ++ s = text v' ++ s' ↔ v = v' ∧ s = s' := by
  refine ⟨fun h => ?_, fun ⟨hv, hs⟩ => by rw [hv, hs]⟩
  obtain ⟨hv, hs⟩ := List.append_inj h ((hlen v).trans (hlen v').symm)
  exact ⟨injective_of_hexval hread hv, hs⟩

theorem hex2_append_inj {b b' : Byte} {s s' : List Byte} : hex2 b ++ s = hex2 b' ++ s' ↔ b = b' ∧ s = s' :=
  append_inj_of_hexval hexval_hex2 hex2_length

theorem hex4_append_inj {w w' : Word} {s s' : List Byte} : hex4 w ++ s = hex4 w' ++ s' ↔ w = w' ∧ s = s' :=
  append_inj_of_hexval hexval_hex4 hex4_length

/-- R143: frames are equal exactly when their unit, function code and two words are. -/
theorem requestFrame_inj {unit fc unit' fc' : Byte} {r a r' a' : Word} :
    requestFrame unit fc r a = requestFrame unit' fc' r' a' ↔ unit = unit' ∧ fc = fc' ∧ r = r' ∧ a = a' := by
  refine ⟨fun h => ?_, fun ⟨hunit, hfc, hr, ha⟩ => by rw [hunit, hfc, hr, ha]⟩
  simp only [requestFrame_eq_append, List.append_assoc, List.append_cancel_left_eq, hex2_append_inj,
    hex4_append_inj] at h
  obtain ⟨hunit, hfc, hr, ha, -⟩ := h
  exact ⟨hunit, hfc, hr, ha⟩

/-! The texts that commands leave (R25, R140, R141, R145). -/

theorem exec_encodeRead (u : Byte) (r a : Word) (s : State) :
    exec (.encodeRead u r a) s = .next (setResult (.ok (.text (requestFrame u fcRead r a))) s) :=
  exec_eq_setResult_report (.encodeRead u r a) s

theorem exec_encodeWrite (u : Byte) (r a : Word) (s : State) :
    exec (.encodeWrite u r a) s = .next (setResult (.ok (.text (requestFrame u fcWrite r a))) s) :=
  exec_eq_setResult_report (.encodeWrite u r a) s

theorem resultOf_eq_ok {x : Except Status Payload} {p : Payload} : resultOf x = .ok p ↔ x = .ok p := by
  cases x <;> simp [resultOf]

/-- R27: a payload in the latch after a command is the one that the command reports. -/
theorem reportOf_of_exec {i : Instr} {s t : State} {p : Payload} (h : exec i s = .next t) (ht : t.result = .ok p) :
    reportOf i = .ok p := by
  rw [exec_eq_setResult_report] at h
  obtain rfl := Host.Outcome.next.inj h
  exact resultOf_eq_ok.1 ht

/-- R140, R141: a request command's text is a frame of its operands. -/
theorem eq_requestFrame_of_reportOf {i : Instr} {out : List Byte} {u : Byte} {r a : Word}
    (hi : i = .encodeRead u r a ∨ i = .encodeWrite u r a) (h : reportOf i = .ok (.text out)) :
    ∃ fc, out = requestFrame u fc r a := by
  obtain rfl | rfl := hi
  · exact ⟨fcRead, by cases h; rfl⟩
  · exact ⟨fcWrite, by cases h; rfl⟩

/-- R25: a legal text fits OUT_CAP. -/
theorem length_le_of_payloadLegal_text {out : List Byte} (h : payloadLegal (.text out) = true) :
    out.length ≤ Config.outCap := by
  simp only [payloadLegal, Bool.and_eq_true, decide_eq_true_eq] at h
  exact h.1

/-- Settles O33: the body of six bytes and its checksum are the bytes of the text, and the checksum completes the sum. -/
theorem producedFramesAreRawFrames : Obligations.ProducedFramesAreRawFrames := by
  unfold Obligations.ProducedFramesAreRawFrames
  intro i s t out u r a hi h ht
  obtain ⟨fc, rfl⟩ := eq_requestFrame_of_reportOf hi (reportOf_of_exec h ht)
  have hsum := lrc_eq_iff_sum.1 (rfl : lrc (bodyBin u fc r a) = lrc (bodyBin u fc r a))
  exact ⟨rawFrame_requestFrame u fc r a, bodyBin u fc r a, _, requestFrame_eq_flatMap u fc r a, rfl, hsum⟩

/-- Settles O34: the outcome holds the frame, which determines its fields, and the two function codes differ. -/
theorem encoderInjective : Obligations.EncoderInjective := by
  unfold Obligations.EncoderInjective
  intro s u r a u' r' a'
  simp only [exec_encodeRead, exec_encodeWrite, ne_eq, Host.Outcome.next.injEq, setResult_inj, Result.ok.injEq,
    Payload.text.injEq, requestFrame_inj]
  refine ⟨fun ⟨hu, _, hr, ha⟩ => ⟨hu, hr, ha⟩, fun ⟨hu, _, hr, ha⟩ => ⟨hu, hr, ha⟩, fun ⟨_, hfc, _⟩ => ?_⟩
  exact absurd hfc (by decide)

/-- Settles O35: every reported text is legal, and a frame's fields and a codec's text have fixed widths. -/
theorem outputLengths : Obligations.OutputLengths := by
  unfold Obligations.OutputLengths
  intro i s t out h ht
  have hreport := reportOf_of_exec h ht
  refine ⟨length_le_of_payloadLegal_text (payloadLegal_reportOf hreport), outCap_eq, fun u r a hi => ?_, ?_, ?_⟩
  · obtain ⟨fc, rfl⟩ := eq_requestFrame_of_reportOf hi hreport
    exact requestFrame_length u fc r a
  · rintro b rfl
    cases hreport
    exact hex2_length b
  · rintro w rfl
    cases hreport
    exact hex4_length w

/-- Settles O31: the code takes UNIT, REG and ARG, and the text is the frame of function code 03. -/
theorem encodeReadResult : Obligations.EncodeReadResult := by
  unfold Obligations.EncodeReadResult
  refine ⟨fun p hwf hcmd => decode_of_code (op := .encodeRead) hwf hcmd, fun u r a s => ?_⟩
  rw [exec_encodeRead, requestFrame_eq_append, hex2_fcRead]
  rfl

/-- Settles O32: the code takes UNIT, REG and ARG, and the text is the frame of function code 06. -/
theorem encodeWriteResult : Obligations.EncodeWriteResult := by
  unfold Obligations.EncodeWriteResult
  refine ⟨fun p hwf hcmd => decode_of_code (op := .encodeWrite) hwf hcmd, fun u r a s => ?_⟩
  rw [exec_encodeWrite, requestFrame_eq_append, hex2_fcWrite]
  rfl

end Sys2Proof.Machine
end

section
/-!
The line of a reply (R163-R165): its leftmost marker, its fields from the marker on, and its end.
-/
namespace Sys2Proof.Machine

/-! The marker search (R163). -/

/-- R163: whether the marker stands at an index is seen in the four bytes from there. -/
theorem markerAt_iff {m u : List Byte} (hm : m.length = 4) {i : Nat} : MarkerAt m u i ↔ (u.drop i).take 4 = m := by
  refine and_iff_left_of_imp fun h => ?_
  have hlen := congrArg List.length h
  rw [List.length_take, List.length_drop, hm] at hlen
  omega

/-- R163: the marker right after `before` is the leftmost, whatever follows it. -/
def FirstMarker (m before : List Byte) : Prop := ∀ i < before.length, ¬ MarkerAt m (before ++ m) i

/-- R163: no index before the marker looks past the marker. -/
theorem markerAt_append {m before rest : List Byte} (hm : m.length = 4) {i : Nat} (hi : i ≤ before.length) :
    MarkerAt m (before ++ m ++ rest) i ↔ MarkerAt m (before ++ m) i := by
  have hlen : i + 4 ≤ (before ++ m).length := by
    rw [List.length_append]
    omega
  rw [markerAt_iff hm, markerAt_iff hm, List.drop_append_of_le_length (by omega),
    List.take_append_of_le_length (by rw [List.length_drop]; omega)]

theorem firstMarker_iff {m before rest : List Byte} (hm : m.length = 4) :
    FirstMarker m before ↔ ∀ i < before.length, ¬ MarkerAt m (before ++ m ++ rest) i :=
  forall₂_congr fun _ hi => (markerAt_append hm hi.le).not.symm

theorem leftmostReply_iff {m u before rest : List Byte} (hm : m.length = 4) :
    LeftmostReply m u before (m ++ rest) ↔ u = before ++ m ++ rest ∧ FirstMarker m before := by
  rw [LeftmostReply, ← List.append_assoc]
  exact and_congr_right fun hu => by rw [hu, firstMarker_iff hm]

/-- R163: the search finds the place of a leftmost marker. -/
theorem findMarker_eq_some {m u : List Byte} {p : Nat} (hm : m.length = 4) :
    findMarker m u = some p ↔ ∃ before rest, u = before ++ m ++ rest ∧ before.length = p ∧ FirstMarker m before := by
  rw [findMarker_some hm]
  constructor
  · rintro ⟨⟨hat, hp⟩, hfirst⟩
    have hu : u = u.take p ++ m ++ (u.drop p).drop 4 := by
      rw [List.append_assoc, ← hat, List.take_append_drop, List.take_append_drop]
    have hlen : (u.take p).length = p := List.length_take_of_le (by omega)
    refine ⟨_, _, hu, hlen, (firstMarker_iff (rest := (u.drop p).drop 4) hm).2 ?_⟩
    rwa [← hu, hlen]
  · rintro ⟨before, rest, rfl, rfl, hfirst⟩
    refine ⟨(markerAt_iff hm).2 ?_, (firstMarker_iff hm).1 hfirst⟩
    rw [List.append_assoc, List.drop_left, ← hm, List.take_left]

/-- R163: two leftmost markers of a line are one. -/
theorem FirstMarker.unique {m before before' rest rest' : List Byte} (hm : m.length = 4) (h : FirstMarker m before)
    (h' : FirstMarker m before') (heq : before ++ m ++ rest = before' ++ m ++ rest') :
    before = before' ∧ rest = rest' := by
  have hfind := (findMarker_eq_some hm).2 ⟨before, rest, rfl, rfl, h⟩
  have hfind' := (findMarker_eq_some hm).2 ⟨before', rest', heq, rfl, h'⟩
  obtain ⟨hb, hrest⟩ := List.append_inj heq (by simp [Option.some.inj (hfind.symm.trans hfind')])
  exact ⟨List.append_cancel_right hb, hrest⟩

/-! The fields and the end of a line (R164, R165), each as what stands in the rest of the line from an index on. -/

/-- A list from an index on begins with `s` exactly when its next bytes are `s` and `t` is what stands after them. -/
theorem drop_eq_append_iff {u s t : List Byte} {i : Nat} :
    u.drop i = s ++ t ↔ (u.drop i).take s.length = s ∧ u.drop (i + s.length) = t := by
  rw [← List.drop_drop]
  constructor
  · intro h
    rw [h, List.take_left, List.drop_left]
    exact ⟨rfl, rfl⟩
  · rintro ⟨hs, ht⟩
    conv_lhs => rw [← List.take_append_drop s.length (u.drop i), hs, ht]

theorem drop_eq_hex2_append {inp t : List Byte} {i : Nat} {v : Byte} :
    (fold inp).drop i = hex2 v ++ t ↔ field8 (fold inp) i = some v ∧ (fold inp).drop (i + 2) = t := by
  rw [drop_eq_append_iff, hex2_length, field8_fold]

theorem drop_eq_hex4_append {inp t : List Byte} {i : Nat} {v : Word} :
    (fold inp).drop i = hex4 v ++ t ↔ field16 (fold inp) i = some v ∧ (fold inp).drop (i + 4) = t := by
  rw [drop_eq_append_iff, hex4_length, field16_fold]

/-- R161, R165: after the checksum field, a line that ends in LF has the trailer exactly when it ends in CR LF there. -/
theorem trailerAt_iff {u : List Byte} {c : Nat} (hlf : u.getLast? = some 0x0A) :
    trailerAt u c = true ↔ u.drop (c + 2) = [0x0D, 0x0A] := by
  have hfst : u[c + 2]? = (u.drop (c + 2))[0]? := by rw [List.getElem?_drop, Nat.add_zero]
  have hlen : (u.drop (c + 2)).length = u.length - (c + 2) := List.length_drop
  have hlast : (u.drop (c + 2)).getLast? = if u.length ≤ c + 2 then none else u.getLast? := List.getLast?_drop
  simp only [trailerAt, chCR, Bool.and_eq_true, beq_iff_eq, hfst]
  rw [hlf] at hlast
  generalize u.drop (c + 2) = t at *
  constructor
  · rintro ⟨hu, hcr⟩
    obtain ⟨x, y, rfl⟩ := List.length_eq_two.1 (hlen.trans (by omega))
    rw [if_neg (by omega)] at hlast
    obtain rfl : x = 0x0D := Option.some.inj hcr
    obtain rfl : y = 0x0A := Option.some.inj hlast
    rfl
  · rintro rfl
    have htwo : 2 = u.length - (c + 2) := hlen
    exact ⟨by omega, rfl⟩

/-! A reply in a line (R66-R68, R163, R165). -/

/-- R163, R165: from its leftmost marker to its end the line holds the marker, the hex text `data`, the checksum field
`cc` and CR LF. -/
def HoldsReply (m u data : List Byte) (cc : Byte) : Prop :=
  ∃ before, LeftmostReply m u before (m ++ (data ++ hex2 cc ++ [0x0D, 0x0A]))

theorem holdsReply_iff {m u data : List Byte} {cc : Byte} (hm : m.length = 4) : HoldsReply m u data cc ↔
    ∃ before, u = before ++ m ++ (data ++ hex2 cc ++ [0x0D, 0x0A]) ∧ FirstMarker m before :=
  exists_congr fun _ => leftmostReply_iff hm

/-- R161: a line that holds a reply ends in LF. -/
theorem HoldsReply.getLast? {m u data : List Byte} {cc : Byte} (h : HoldsReply m u data cc) :
    u.getLast? = some 0x0A := by
  obtain ⟨before, rfl, -⟩ := h
  simp

/-- R163-R165: a line holds a reply exactly when the search finds a marker after which the fields stand. -/
theorem holdsReply_iff_drop {m u data : List Byte} {cc : Byte} (hm : m.length = 4) : HoldsReply m u data cc ↔
    ∃ p, findMarker m u = some p ∧ u.drop (p + 4) = data ++ hex2 cc ++ [0x0D, 0x0A] := by
  rw [holdsReply_iff hm]
  constructor
  · rintro ⟨before, rfl, hfirst⟩
    refine ⟨before.length, (findMarker_eq_some hm).2 ⟨before, _, rfl, rfl, hfirst⟩, ?_⟩
    exact List.drop_left' (by rw [List.length_append, hm])
  · rintro ⟨p, hp, hdrop⟩
    obtain ⟨before, rest, rfl, rfl, hfirst⟩ := (findMarker_eq_some hm).1 hp
    rw [List.drop_left' (by rw [List.length_append, hm])] at hdrop
    exact ⟨before, by rw [hdrop], hfirst⟩

/-- R163: the marker of a reply stands in the line that holds it. -/
theorem HoldsReply.markerAt {m u data : List Byte} {cc : Byte} (hm : m.length = 4) (h : HoldsReply m u data cc) :
    ∃ i, MarkerAt m u i := by
  obtain ⟨p, hp, -⟩ := (holdsReply_iff_drop hm).1 h
  exact ⟨p, ((findMarker_some hm).1 hp).1⟩

/-- R163: bytes in front of a line in which no marker begins leave it the reply it holds. -/
theorem holdsReply_append_left {m noise u data : List Byte} {cc : Byte} (hm : m.length = 4)
    (hnoise : ∀ i < noise.length, ¬ MarkerAt m (noise ++ u) i) :
    HoldsReply m (noise ++ u) data cc ↔ HoldsReply m u data cc := by
  have hshift : ∀ i, MarkerAt m (noise ++ u) (noise.length + i) ↔ MarkerAt m u i := fun i => by
    rw [markerAt_iff hm, markerAt_iff hm, List.drop_length_add_append]
  constructor
  · rintro ⟨before, hu, hfirst⟩
    have hlen : noise.length ≤ before.length := by
      by_contra hlt
      refine hnoise before.length (by omega) ((markerAt_iff hm).2 ?_)
      rw [hu, List.drop_left, ← hm, List.take_left]
    obtain ⟨before, rfl⟩ : ∃ before', before = noise ++ before' :=
      (List.prefix_of_prefix_length_le ⟨u, rfl⟩ ⟨_, hu.symm⟩ hlen).imp fun _ => Eq.symm
    refine ⟨before, List.append_cancel_left (hu.trans (List.append_assoc ..)), fun i hi => ?_⟩
    rw [← hshift]
    exact hfirst _ (by simpa using hi)
  · rintro ⟨before, rfl, hfirst⟩
    refine ⟨noise ++ before, (List.append_assoc ..).symm, fun i hi => ?_⟩
    obtain hlt | hge := Nat.lt_or_ge i noise.length
    · exact hnoise i hlt
    · obtain ⟨j, rfl⟩ := Nat.exists_eq_add_of_le hge
      rw [hshift]
      exact hfirst j (by simpa using hi)

/-- R110: two digits of other values than those of a byte's text are, in uppercase, the text of another byte. -/
theorem fold_other_digits {x y x' y' b : Byte} (hb : fold [x, y] = hex2 b) (hx : digitval x' ≠ none)
    (hy : digitval y' ≠ none) (hne : [digitval x', digitval y'] ≠ [digitval x, digitval y]) :
    ∃ b', b' ≠ b ∧ fold [x', y'] = hex2 b' := by
  obtain ⟨v, hv⟩ := Option.ne_none_iff_exists'.1 hx
  obtain ⟨w, hw⟩ := Option.ne_none_iff_exists'.1 hy
  obtain ⟨-, hb'⟩ := hex2_of_hexval rfl (hexval_of_digits (s := [x', y']) (ds := [v, w]) (by simp [hv, hw]))
  refine ⟨_, fun heq => hne ?_, hb'.symm⟩
  have hfold : fold [x', y'] = fold [x, y] := by rw [← hb', heq, hb]
  exact (map_digitval_fold [x', y']).symm.trans (hfold ▸ map_digitval_fold [x, y])

/-- R110: a pair of bytes that is the text of a byte is two digits. -/
theorem digitval_ne_none_of_fold {x y b : Byte} (h : fold [x, y] = hex2 b) : digitval x ≠ none ∧ digitval y ≠ none := by
  obtain ⟨hx, hy⟩ : foldByte x = hexdigit (b.extractLsb' 4 4) ∧ foldByte y = hexdigit (b.extractLsb' 0 4) := by
    simpa [fold, hex2] using h
  rw [← digitval_foldByte x, ← digitval_foldByte y, hx, hy, digitval_hexdigit, digitval_hexdigit]
  exact ⟨Option.some_ne_none _, Option.some_ne_none _⟩

/-- R165, R187: one digit of a checksum field replaced by a digit of another value gives the field of another byte. -/
theorem fold_set_checksum {inp front : List Byte} {cc c : Byte} {k : Nat}
    (h : fold inp = front ++ hex2 cc ++ [0x0D, 0x0A]) (hk : k + 4 = inp.length ∨ k + 3 = inp.length)
    (hc : digitval c ≠ none) (hne : digitval c ≠ (inp[k]?).bind digitval) :
    ∃ cc', cc' ≠ cc ∧ fold (inp.set k c) = front ++ hex2 cc' ++ [0x0D, 0x0A] := by
  obtain ⟨init, crlf, rfl, hinit, hcrlf⟩ := List.map_eq_append_iff.1 h
  obtain ⟨start, field, rfl, rfl, hfield⟩ := List.map_eq_append_iff.1 hinit
  obtain ⟨x, y, rfl⟩ := List.length_eq_two.1 (by simpa using congrArg List.length hfield)
  obtain ⟨hx, hy⟩ := digitval_ne_none_of_fold hfield
  have hlen : crlf.length = 2 := by simpa using congrArg List.length hcrlf
  have hset : ∃ x' y', (start ++ [x, y] ++ crlf).set k c = start ++ [x', y'] ++ crlf ∧ digitval x' ≠ none ∧
      digitval y' ≠ none ∧ [digitval x', digitval y'] ≠ [digitval x, digitval y] := by
    obtain rfl | rfl : k = start.length ∨ k = start.length + 1 := by
      simp only [List.length_append, List.length_cons, List.length_nil, hlen] at hk
      omega
    · exact ⟨c, y, by simp, hc, hy, by simpa using hne⟩
    · exact ⟨x, c, by simp, hx, hc, by simpa using hne⟩
  obtain ⟨x', y', hset, hx', hy', hother⟩ := hset
  obtain ⟨cc', hcc, hfield'⟩ := fold_other_digits hfield hx' hy' hother
  exact ⟨cc', hcc, by rw [hset, fold_append, fold_append, hfield', ← hcrlf]; rfl⟩

end Sys2Proof.Machine
end

section
/-!
The two decoders (R166, R170, R180): the outcome of a line, read off the reply that it holds.
-/
namespace Sys2Proof.Machine

/-- R161, R163-R167: what a decoder makes of a line. `form data sum x` says that `data` is the hex text of a complete
reply after its marker, that `sum` is the checksum of its body, and that `x` is its outcome with the right checksum. -/
inductive LineOutcome (m : List Byte) (form : List Byte → Byte → Except Status Payload → Prop) (inp : List Byte) :
    Except Status Payload → Prop
  | timeout : inp.getLast? ≠ some 0x0A → LineOutcome m form inp (.error .timeout)
  | malformed : inp.getLast? = some 0x0A →
    (∀ {data sum x cc}, form data sum x → ¬ HoldsReply m (fold inp) data cc) →
    LineOutcome m form inp (.error .malformedReply)
  | mismatch {data sum x cc} : form data sum x → HoldsReply m (fold inp) data cc → cc ≠ sum →
    LineOutcome m form inp (.error .checksumMismatch)
  | verdict {data sum x} : form data sum x → HoldsReply m (fold inp) data sum → LineOutcome m form inp x

/-- R170: the two forms of a read reply (R66, R67) after its marker, and the measurements they give (R24). -/
inductive ReadForm (unit : Byte) : List Byte → Byte → Except Status Payload → Prop
  | two (pv sp : Word) : ReadForm unit (hex2 4 ++ hex4 pv ++ hex4 sp)
    (lrc [unit, 0x03, 0x04, hi8 pv, lo8 pv, hi8 sp, lo8 sp]) (.ok (.measurement 4 pv (some sp) .ten))
  | one (pv : Word) : ReadForm unit (hex2 2 ++ hex4 pv)
    (lrc [unit, 0x03, 0x02, hi8 pv, lo8 pv]) (.ok (.measurement 2 pv none .one))

/-- R180, R181: a write reply (R68) after its marker: the echo of `reg` and `arg`, or another register or value. -/
inductive WriteForm (unit : Byte) (reg arg : Word) : List Byte → Byte → Except Status Payload → Prop
  | echo : WriteForm unit reg arg (hex4 reg ++ hex4 arg)
    (lrc [unit, 0x06, hi8 reg, lo8 reg, hi8 arg, lo8 arg]) (.ok .writeAck)
  | other {r v : Word} : r ≠ reg ∨ v ≠ arg → WriteForm unit reg arg (hex4 r ++ hex4 v)
    (lrc [unit, 0x06, hi8 r, lo8 r, hi8 v, lo8 v]) (.error .writeRejected)

/-! The fields after the marker (R163-R165). -/

theorem readSpField_four (u : List Byte) (p : Nat) : readSpField u p 4 = (field16 u (p + 10)).map some := rfl

theorem readSpField_two (u : List Byte) (p : Nat) : readSpField u p 2 = some none := rfl

/-- R66, R67, R170: after the marker stand a byte count of 4 or 2, its registers, the checksum field and CR LF. -/
theorem readFieldsAt_eq_some {inp : List Byte} (hlf : inp.getLast? = some 0x0A) {p : Nat} {r : ReadReply} :
    readFieldsAt (fold inp) p = some r ↔
      (∃ pv sp cc, r = ⟨4, pv, some sp, cc⟩ ∧
        (fold inp).drop (p + 4) = hex2 4 ++ hex4 pv ++ hex4 sp ++ hex2 cc ++ [0x0D, 0x0A]) ∨
      (∃ pv cc, r = ⟨2, pv, none, cc⟩ ∧
        (fold inp).drop (p + 4) = hex2 2 ++ hex4 pv ++ hex2 cc ++ [0x0D, 0x0A]) := by
  simp only [List.append_assoc, drop_eq_hex2_append, drop_eq_hex4_append, ← trailerAt_iff ((getLast_fold inp).2 hlf)]
  constructor
  · intro h
    simp only [readFieldsAt, Option.bind_eq_some_iff, Option.ite_none_right_eq_some, Option.some.injEq] at h
    obtain ⟨n, hn, rfl | rfl, pv, hpv, spOpt, hfield, cc, hcc, hend, rfl⟩ := h
    · rw [readSpField_two] at hfield
      obtain rfl := Option.some.inj hfield
      exact .inr ⟨pv, cc, rfl, hn, hpv, hcc, hend⟩
    · rw [readSpField_four] at hfield
      obtain ⟨sp, hsp, rfl⟩ := Option.map_eq_some_iff.1 hfield
      exact .inl ⟨pv, sp, cc, rfl, hn, hpv, hsp, hcc, hend⟩
  · rintro (⟨pv, sp, cc, rfl, hn, hpv, hsp, hcc, hend⟩ | ⟨pv, cc, rfl, hn, hpv, hcc, hend⟩)
    · simp [readFieldsAt, readSpField, hn, hpv, hsp, hcc, hend]
    · simp [readFieldsAt, readSpField, hn, hpv, hcc, hend]

/-- R68, R180: after the marker stand the register, the value, the checksum field and CR LF. -/
theorem writeFieldsAt_eq_some {inp : List Byte} (hlf : inp.getLast? = some 0x0A) {p : Nat} {r : WriteReply} :
    writeFieldsAt (fold inp) p = some r ↔
      (fold inp).drop (p + 4) = hex4 r.reg ++ hex4 r.value ++ hex2 r.cc ++ [0x0D, 0x0A] := by
  simp only [List.append_assoc, drop_eq_hex2_append, drop_eq_hex4_append, ← trailerAt_iff ((getLast_fold inp).2 hlf)]
  constructor
  · intro h
    simp only [writeFieldsAt, Option.bind_eq_some_iff, Option.ite_none_right_eq_some, Option.some.injEq] at h
    obtain ⟨reg, hreg, value, hvalue, cc, hcc, hend, rfl⟩ := h
    exact ⟨hreg, hvalue, hcc, hend⟩
  · rintro ⟨hreg, hvalue, hcc, hend⟩
    simp [writeFieldsAt, hreg, hvalue, hcc, hend]

/-! The judgement of a complete reply (R167, R170, R181), an equation per form. -/

/-- R167: the outcome of a complete reply that declares the checksum `cc` for a body whose checksum is `sum`. -/
def afterChecksum (cc sum : Byte) (x : Except Status Payload) : Except Status Payload :=
  if cc = sum then x else .error .checksumMismatch

@[simp] theorem afterChecksum_self (sum : Byte) (x : Except Status Payload) : afterChecksum sum sum x = x := if_pos rfl

theorem afterChecksum_of_ne {cc sum : Byte} (h : cc ≠ sum) (x : Except Status Payload) :
    afterChecksum cc sum x = .error .checksumMismatch :=
  if_neg h

theorem ite_ne_checksum (cc sum : Byte) (x : Except Status Payload) :
    (if sum ≠ cc then .error .checksumMismatch else x) = afterChecksum cc sum x := by
  simp only [afterChecksum, ne_eq, ite_not, eq_comm]

theorem judgeRead_two (unit : Byte) (pv sp : Word) (cc : Byte) : judgeRead unit ⟨4, pv, some sp, cc⟩ =
    afterChecksum cc (lrc [unit, 0x03, 0x04, hi8 pv, lo8 pv, hi8 sp, lo8 sp])
      (.ok (.measurement 4 pv (some sp) .ten)) :=
  ite_ne_checksum ..

theorem judgeRead_one (unit : Byte) (pv : Word) (cc : Byte) : judgeRead unit ⟨2, pv, none, cc⟩ =
    afterChecksum cc (lrc [unit, 0x03, 0x02, hi8 pv, lo8 pv]) (.ok (.measurement 2 pv none .one)) :=
  ite_ne_checksum ..

theorem judgeWrite_echo (unit : Byte) (reg arg : Word) (cc : Byte) : judgeWrite unit reg arg ⟨reg, arg, cc⟩ =
    afterChecksum cc (lrc [unit, 0x06, hi8 reg, lo8 reg, hi8 arg, lo8 arg]) (.ok .writeAck) := by
  have hecho : ¬ (reg ≠ reg ∨ arg ≠ arg) := by simp
  rw [judgeWrite, if_neg hecho]
  exact ite_ne_checksum ..

theorem judgeWrite_other (unit : Byte) {reg arg r v : Word} (hne : r ≠ reg ∨ v ≠ arg) (cc : Byte) :
    judgeWrite unit reg arg ⟨r, v, cc⟩ =
      afterChecksum cc (lrc [unit, 0x06, hi8 r, lo8 r, hi8 v, lo8 v]) (.error .writeRejected) := by
  rw [judgeWrite, if_pos hne]
  exact ite_ne_checksum ..

/-! The outcome of a line (R161, R166). -/

/-- R166: `judged` is what structure and checksum make of a terminated line: `none` where it holds no complete reply,
and else the outcome of the reply that it holds. -/
def Judges (m : List Byte) (form : List Byte → Byte → Except Status Payload → Prop) (inp : List Byte)
    (judged : Option (Except Status Payload)) : Prop :=
  ∀ y, judged = some y ↔
    ∃ data sum x cc, form data sum x ∧ HoldsReply m (fold inp) data cc ∧ afterChecksum cc sum x = y

theorem judges_read (unit : Byte) {inp : List Byte} (hlf : inp.getLast? = some 0x0A) :
    Judges (readMarker unit) (ReadForm unit) inp ((parseRead unit (fold inp)).map (judgeRead unit)) := by
  intro y
  simp only [Option.map_eq_some_iff, parseRead, Option.bind_eq_some_iff, readFieldsAt_eq_some hlf]
  constructor
  · rintro ⟨r, ⟨p, hp, ⟨pv, sp, cc, rfl, hdrop⟩ | ⟨pv, cc, rfl, hdrop⟩⟩, rfl⟩
    · exact ⟨_, _, _, cc, .two pv sp, (holdsReply_iff_drop rfl).2 ⟨p, hp, hdrop⟩, (judgeRead_two ..).symm⟩
    · exact ⟨_, _, _, cc, .one pv, (holdsReply_iff_drop rfl).2 ⟨p, hp, hdrop⟩, (judgeRead_one ..).symm⟩
  · rintro ⟨data, sum, x, cc, hform, hheld, rfl⟩
    obtain ⟨p, hp, hdrop⟩ := (holdsReply_iff_drop rfl).1 hheld
    cases hform with
    | two pv sp => exact ⟨_, ⟨p, hp, .inl ⟨pv, sp, cc, rfl, hdrop⟩⟩, judgeRead_two ..⟩
    | one pv => exact ⟨_, ⟨p, hp, .inr ⟨pv, cc, rfl, hdrop⟩⟩, judgeRead_one ..⟩

theorem judges_write (unit : Byte) (reg arg : Word) {inp : List Byte} (hlf : inp.getLast? = some 0x0A) :
    Judges (writeMarker unit) (WriteForm unit reg arg) inp
      ((parseWrite unit (fold inp)).map (judgeWrite unit reg arg)) := by
  intro y
  simp only [Option.map_eq_some_iff, parseWrite, Option.bind_eq_some_iff, writeFieldsAt_eq_some hlf]
  constructor
  · rintro ⟨⟨r, v, cc⟩, ⟨p, hp, hdrop⟩, rfl⟩
    have hheld := (holdsReply_iff_drop rfl).2 ⟨p, hp, hdrop⟩
    by_cases hne : r ≠ reg ∨ v ≠ arg
    · exact ⟨_, _, _, cc, .other hne, hheld, (judgeWrite_other unit hne cc).symm⟩
    · obtain ⟨rfl, rfl⟩ : r = reg ∧ v = arg := by simpa using hne
      exact ⟨_, _, _, cc, .echo, hheld, (judgeWrite_echo ..).symm⟩
  · rintro ⟨data, sum, x, cc, hform, hheld, rfl⟩
    obtain ⟨p, hp, hdrop⟩ := (holdsReply_iff_drop rfl).1 hheld
    cases hform with
    | echo => exact ⟨⟨reg, arg, cc⟩, ⟨p, hp, hdrop⟩, judgeWrite_echo ..⟩
    | @other r v hne => exact ⟨⟨r, v, cc⟩, ⟨p, hp, hdrop⟩, judgeWrite_other unit hne cc⟩

/-- R161, R166: line completeness first, then the structure, then the judgement. -/
theorem lineOutcome_iff {m inp : List Byte} {form : List Byte → Byte → Except Status Payload → Prop}
    {judged : Option (Except Status Payload)} (hjudged : inp.getLast? = some 0x0A → Judges m form inp judged)
    {x : Except Status Payload} :
    (if lineIncomplete inp then .error .timeout else judged.getD (.error .malformedReply)) = x ↔
      LineOutcome m form inp x := by
  by_cases hlf : inp.getLast? = some 0x0A
  · have hj := hjudged hlf
    rw [lineIncomplete_false.2 hlf]
    constructor
    · rintro rfl
      cases judged with
      | none => exact .malformed hlf fun hform hheld => nomatch (hj _).2 ⟨_, _, _, _, hform, hheld, rfl⟩
      | some y =>
        obtain ⟨data, sum, x, cc, hform, hheld, rfl⟩ := (hj y).1 rfl
        obtain rfl | hne := eq_or_ne cc sum
        · simpa using .verdict hform hheld
        · simpa [afterChecksum_of_ne hne] using .mismatch hform hheld hne
    · intro h
      cases h with
      | timeout hnlf => exact absurd hlf hnlf
      | malformed _ habsent =>
        cases judged with
        | none => rfl
        | some y =>
          obtain ⟨_, _, _, _, hform, hheld, -⟩ := (hj y).1 rfl
          exact absurd hheld (habsent hform)
      | mismatch hform hheld hne => rw [(hj _).2 ⟨_, _, _, _, hform, hheld, (afterChecksum_of_ne hne _)⟩]; rfl
      | verdict hform hheld => rw [(hj _).2 ⟨_, _, _, _, hform, hheld, afterChecksum_self _ _⟩]; rfl
  · rw [lineIncomplete_true.2 hlf]
    constructor
    · rintro rfl
      exact .timeout hlf
    · intro h
      cases h with
      | timeout _ => rfl
      | malformed hlf' _ => exact absurd hlf' hlf
      | mismatch _ hheld _ => exact absurd ((getLast_fold inp).1 hheld.getLast?) hlf
      | verdict _ hheld => exact absurd ((getLast_fold inp).1 hheld.getLast?) hlf

/-- R170: the outcomes of DECODE_READ. -/
theorem decodeReadLine_eq_iff {unit : Byte} {inp : List Byte} {x : Except Status Payload} :
    decodeReadLine unit inp = x ↔ LineOutcome (readMarker unit) (ReadForm unit) inp x := by
  rw [← lineOutcome_iff (judges_read unit), decodeReadLine]
  cases parseRead unit (fold inp) <;> rfl

/-- R180: the outcomes of DECODE_WRITE. -/
theorem decodeWriteLine_eq_iff {unit : Byte} {reg arg : Word} {inp : List Byte} {x : Except Status Payload} :
    decodeWriteLine unit reg arg inp = x ↔ LineOutcome (writeMarker unit) (WriteForm unit reg arg) inp x := by
  rw [← lineOutcome_iff (judges_write unit reg arg), decodeWriteLine]
  cases parseWrite unit (fold inp) <;> rfl

end Sys2Proof.Machine
end

section
/-!
What each outcome of the decoders says of the line (R160-R181): the lines of each outcome, exactly.
-/
namespace Sys2Proof.Machine

/-! The latch after a command, and the outcome that it holds. -/

theorem resultOf_eq_err {x : Except Status Payload} {e : Status} : resultOf x = .err e ↔ x = .error e := by
  cases x <;> simp [resultOf]

theorem resultOf_injective : Function.Injective resultOf := by
  intro x y h
  cases y with
  | ok p => exact resultOf_eq_ok.1 h
  | error e => exact resultOf_eq_err.1 h

/-- R27: the latch that a command leaves is that of its report alone. -/
theorem exec_eq_iff {i : Instr} {s : State} {x : Except Status Payload} :
    exec i s = .next (setResult (resultOf x) s) ↔ reportOf i = x := by
  rw [exec_eq_setResult_report, Host.Outcome.next.injEq, setResult_inj, resultOf_injective.eq_iff]

theorem exec_congr {i i' : Instr} (h : reportOf i = reportOf i') (s : State) : exec i s = exec i' s := by
  rw [exec_eq_setResult_report, exec_eq_setResult_report, h]

theorem exec_decodeRead_iff {s : State} {u : Byte} {inp : List Byte} {x : Except Status Payload} :
    exec (.decodeRead u inp) s = .next (setResult (resultOf x) s) ↔
      LineOutcome (readMarker u) (ReadForm u) inp x :=
  exec_eq_iff.trans decodeReadLine_eq_iff

theorem exec_decodeWrite_iff {s : State} {u : Byte} {reg arg : Word} {inp : List Byte} {x : Except Status Payload} :
    exec (.decodeWrite u reg arg inp) s = .next (setResult (resultOf x) s) ↔
      LineOutcome (writeMarker u) (WriteForm u reg arg) inp x :=
  exec_eq_iff.trans decodeWriteLine_eq_iff

/-! The lines of each outcome, where the decoder's own outcomes are no verdict of a reply. -/

section
variable {m inp : List Byte} {form : List Byte → Byte → Except Status Payload → Prop}

theorem lineOutcome_timeout_iff (hform : ∀ data sum, ¬ form data sum (.error .timeout)) :
    LineOutcome m form inp (.error .timeout) ↔ inp = [] ∨ inp.getLast? ≠ some 0x0A := by
  have hempty : inp = [] → inp.getLast? ≠ some 0x0A := by rintro rfl; simp
  rw [or_iff_right_of_imp hempty]
  refine ⟨fun h => ?_, .timeout⟩
  cases h with
  | timeout hlf => exact hlf
  | verdict hverdict _ => exact absurd hverdict (hform _ _)

theorem lineOutcome_malformed_iff (hform : ∀ data sum, ¬ form data sum (.error .malformedReply)) :
    LineOutcome m form inp (.error .malformedReply) ↔
      inp.getLast? = some 0x0A ∧ ¬ ∃ data sum x cc, form data sum x ∧ HoldsReply m (fold inp) data cc := by
  constructor
  · intro h
    cases h with
    | malformed hlf habsent => exact ⟨hlf, fun ⟨_, _, _, _, hreply, hheld⟩ => habsent hreply hheld⟩
    | verdict hverdict _ => exact absurd hverdict (hform _ _)
  · rintro ⟨hlf, habsent⟩
    exact .malformed hlf fun hreply hheld => habsent ⟨_, _, _, _, hreply, hheld⟩

theorem lineOutcome_mismatch_iff (hform : ∀ data sum, ¬ form data sum (.error .checksumMismatch)) :
    LineOutcome m form inp (.error .checksumMismatch) ↔
      ∃ data sum x cc, form data sum x ∧ HoldsReply m (fold inp) data cc ∧ cc ≠ sum := by
  constructor
  · intro h
    cases h with
    | mismatch hreply hheld hne => exact ⟨_, _, _, _, hreply, hheld, hne⟩
    | verdict hverdict _ => exact absurd hverdict (hform _ _)
  · rintro ⟨data, sum, x, cc, hreply, hheld, hne⟩
    exact .mismatch hreply hheld hne

end

/-! DECODE_READ (R170). -/

theorem readForm_not_error {unit : Byte} {e : Status} (data : List Byte) (sum : Byte) :
    ¬ ReadForm unit data sum (.error e) := nofun

theorem lineOutcome_two_iff {unit : Byte} {inp : List Byte} {pv sp : Word} :
    LineOutcome (readMarker unit) (ReadForm unit) inp (.ok (.measurement 4 pv (some sp) .ten)) ↔
      ∃ before, LeftmostReply (readMarker unit) (fold inp) before
        (readReply4 unit pv sp (lrc [unit, 0x03, 0x04, hi8 pv, lo8 pv, hi8 sp, lo8 sp])) := by
  refine ⟨fun h => ?_, fun ⟨before, hleft⟩ => .verdict (.two pv sp) ⟨before, hleft⟩⟩
  cases h with
  | verdict hreply hheld => cases hreply; exact hheld

theorem lineOutcome_one_iff {unit : Byte} {inp : List Byte} {pv : Word} :
    LineOutcome (readMarker unit) (ReadForm unit) inp (.ok (.measurement 2 pv none .one)) ↔
      ∃ before, LeftmostReply (readMarker unit) (fold inp) before
        (readReply2 unit pv (lrc [unit, 0x03, 0x02, hi8 pv, lo8 pv])) := by
  refine ⟨fun h => ?_, fun ⟨before, hleft⟩ => .verdict (.one pv) ⟨before, hleft⟩⟩
  cases h with
  | verdict hreply hheld => cases hreply; exact hheld

/-- Settles O37: the only reply with this measurement is the one of its values. -/
theorem readAcceptsExactlyTwoRegisterReplies : Obligations.ReadAcceptsExactlyTwoRegisterReplies := by
  unfold Obligations.ReadAcceptsExactlyTwoRegisterReplies
  exact fun s u inp pv sp => exec_decodeRead_iff.trans lineOutcome_two_iff

/-- Settles O38: the only reply with this measurement is the one of its value. -/
theorem readAcceptsExactlyOneRegisterReplies : Obligations.ReadAcceptsExactlyOneRegisterReplies := by
  unfold Obligations.ReadAcceptsExactlyOneRegisterReplies
  exact fun s u inp pv => exec_decodeRead_iff.trans lineOutcome_one_iff

/-- R66, R67: a complete read reply is the marker, one of the two forms, the checksum field and the terminator. -/
theorem readReplyForm_iff {unit : Byte} {reply : List Byte} {cc sum : Byte} : ReadReplyForm unit reply cc sum ↔
    ∃ data x, ReadForm unit data sum x ∧ reply = readMarker unit ++ (data ++ hex2 cc ++ [0x0D, 0x0A]) := by
  constructor
  · rintro (⟨pv, sp, rfl, rfl⟩ | ⟨pv, rfl, rfl⟩)
    · exact ⟨_, _, .two pv sp, rfl⟩
    · exact ⟨_, _, .one pv, rfl⟩
  · rintro ⟨data, x, hform, rfl⟩
    cases hform with
    | two pv sp => exact .inl ⟨pv, sp, rfl, rfl⟩
    | one pv => exact .inr ⟨pv, rfl, rfl⟩

/-- Settles O39: the declared checksum of a complete reply is compared with that of its body. -/
theorem readChecksumMismatchExactly : Obligations.ReadChecksumMismatchExactly := by
  unfold Obligations.ReadChecksumMismatchExactly
  intro s u inp
  refine exec_decodeRead_iff.trans ((lineOutcome_mismatch_iff readForm_not_error).trans ?_)
  simp only [readReplyForm_iff]
  constructor
  · rintro ⟨data, sum, x, cc, hform, ⟨before, hleft⟩, hne⟩
    exact ⟨before, _, cc, sum, ⟨data, x, hform, rfl⟩, hne, hleft⟩
  · rintro ⟨before, _, cc, sum, ⟨data, x, hform, rfl⟩, hne, hleft⟩
    exact ⟨data, sum, x, cc, hform, ⟨before, hleft⟩, hne⟩

/-- Settles O40: a terminated line is malformed where it holds a reply of neither form. -/
theorem readMalformedExactly : Obligations.ReadMalformedExactly := by
  unfold Obligations.ReadMalformedExactly
  intro s u inp
  refine exec_decodeRead_iff.trans ((lineOutcome_malformed_iff readForm_not_error).trans ?_)
  simp only [readReplyForm_iff]
  refine and_congr_right fun _ => not_congr ⟨?_, ?_⟩
  · rintro ⟨data, sum, x, cc, hform, before, hleft⟩
    exact ⟨before, _, cc, sum, ⟨data, x, hform, rfl⟩, hleft⟩
  · rintro ⟨before, _, cc, sum, ⟨data, x, hform, rfl⟩, hleft⟩
    exact ⟨data, sum, x, cc, hform, before, hleft⟩

/-! DECODE_WRITE (R180). -/

/-- R180, R181: a write reply has a verdict for every register and value. -/
theorem exists_writeForm (unit : Byte) (reg arg r v : Word) : ∃ x, WriteForm unit reg arg (hex4 r ++ hex4 v)
    (lrc [unit, 0x06, hi8 r, lo8 r, hi8 v, lo8 v]) x := by
  by_cases hne : r ≠ reg ∨ v ≠ arg
  · exact ⟨_, .other hne⟩
  · obtain ⟨rfl, rfl⟩ : r = reg ∧ v = arg := by simpa using hne
    exact ⟨_, .echo⟩

/-- R180, R181: the text after the marker of a write reply is that of its register and value, and fixes its checksum. -/
theorem WriteForm.exists_words {unit : Byte} {reg arg : Word} {data : List Byte} {sum : Byte}
    {x : Except Status Payload} (h : WriteForm unit reg arg data sum x) :
    ∃ r v, data = hex4 r ++ hex4 v ∧ sum = lrc [unit, 0x06, hi8 r, lo8 r, hi8 v, lo8 v] := by
  cases h with
  | echo => exact ⟨_, _, rfl, rfl⟩
  | other _ => exact ⟨_, _, rfl, rfl⟩

section
variable {unit : Byte} {reg arg : Word} {inp : List Byte}

theorem lineOutcome_echo_iff :
    LineOutcome (writeMarker unit) (WriteForm unit reg arg) inp (.ok .writeAck) ↔
      ∃ before, LeftmostReply (writeMarker unit) (fold inp) before
        (writeReply unit reg arg (lrc [unit, 0x06, hi8 reg, lo8 reg, hi8 arg, lo8 arg])) := by
  refine ⟨fun h => ?_, fun ⟨before, hleft⟩ => .verdict .echo ⟨before, hleft⟩⟩
  cases h with
  | verdict hreply hheld => cases hreply; exact hheld

theorem lineOutcome_other_iff :
    LineOutcome (writeMarker unit) (WriteForm unit reg arg) inp (.error .writeRejected) ↔
      ∃ before r v, (r ≠ reg ∨ v ≠ arg) ∧ LeftmostReply (writeMarker unit) (fold inp) before
        (writeReply unit r v (lrc [unit, 0x06, hi8 r, lo8 r, hi8 v, lo8 v])) := by
  constructor
  · intro h
    cases h with
    | verdict hreply hheld =>
      cases hreply with
      | other hne =>
        obtain ⟨before, hleft⟩ := hheld
        exact ⟨before, _, _, hne, hleft⟩
  · rintro ⟨before, r, v, hne, hleft⟩
    exact .verdict (.other hne) ⟨before, hleft⟩

theorem lineOutcome_write_mismatch_iff :
    LineOutcome (writeMarker unit) (WriteForm unit reg arg) inp (.error .checksumMismatch) ↔
      ∃ before r v cc, cc ≠ lrc [unit, 0x06, hi8 r, lo8 r, hi8 v, lo8 v] ∧
        LeftmostReply (writeMarker unit) (fold inp) before (writeReply unit r v cc) := by
  rw [lineOutcome_mismatch_iff fun _ _ => nofun]
  constructor
  · rintro ⟨data, sum, x, cc, hform, ⟨before, hleft⟩, hne⟩
    obtain ⟨r, v, rfl, rfl⟩ := hform.exists_words
    exact ⟨before, r, v, cc, hne, hleft⟩
  · rintro ⟨before, r, v, cc, hne, hleft⟩
    obtain ⟨x, hform⟩ := exists_writeForm unit reg arg r v
    exact ⟨_, _, x, cc, hform, ⟨before, hleft⟩, hne⟩

theorem lineOutcome_write_malformed_iff :
    LineOutcome (writeMarker unit) (WriteForm unit reg arg) inp (.error .malformedReply) ↔
      inp.getLast? = some 0x0A ∧ ¬ ∃ before r v cc,
        LeftmostReply (writeMarker unit) (fold inp) before (writeReply unit r v cc) := by
  rw [lineOutcome_malformed_iff fun _ _ => nofun]
  refine and_congr_right fun _ => not_congr ⟨?_, ?_⟩
  · rintro ⟨data, sum, x, cc, hform, before, hleft⟩
    obtain ⟨r, v, rfl, rfl⟩ := hform.exists_words
    exact ⟨before, r, v, cc, hleft⟩
  · rintro ⟨before, r, v, cc, hleft⟩
    obtain ⟨x, hform⟩ := exists_writeForm unit reg arg r v
    exact ⟨_, _, x, cc, hform, before, hleft⟩

end

/-- Settles O41: a reply of any register and value has a verdict, and the verdicts are the echo and the rejection. -/
theorem writeOutcomesExactly : Obligations.WriteOutcomesExactly := by
  unfold Obligations.WriteOutcomesExactly
  exact fun s u reg arg inp => ⟨(exec_decodeWrite_iff (x := .ok .writeAck)).trans lineOutcome_echo_iff,
    (exec_decodeWrite_iff (x := .error .writeRejected)).trans lineOutcome_other_iff,
    (exec_decodeWrite_iff (x := .error .checksumMismatch)).trans lineOutcome_write_mismatch_iff,
    (exec_decodeWrite_iff (x := .error .malformedReply)).trans lineOutcome_write_malformed_iff⟩

/-! Fail-closed (R160). -/

/-- R160, R166: a line's outcome is an error of the decoder's own checks, or a verdict of a reply form. -/
theorem LineOutcome.error_or_verdict {m inp : List Byte} {form : List Byte → Byte → Except Status Payload → Prop}
    {x : Except Status Payload} (h : LineOutcome m form inp x) :
    x = .error .timeout ∨ x = .error .malformedReply ∨ x = .error .checksumMismatch ∨ ∃ data sum, form data sum x := by
  cases h with
  | timeout _ => exact .inl rfl
  | malformed _ _ => exact .inr (.inl rfl)
  | mismatch _ _ _ => exact .inr (.inr (.inl rfl))
  | verdict hform _ => exact .inr (.inr (.inr ⟨_, _, hform⟩))

/-- Settles O36: the latch of the line's outcome, whose verdicts are those of the decoder's forms. -/
theorem decodingFailsClosed : Obligations.DecodingFailsClosed := by
  unfold Obligations.DecodingFailsClosed
  refine ⟨fun u inp => ⟨resultOf (decodeReadLine u inp), ?_, ?_, exec_eq_setResult_report (.decodeRead u inp)⟩,
    fun u reg arg inp => ⟨resultOf (decodeWriteLine u reg arg inp), ?_, ?_,
      exec_eq_setResult_report (.decodeWrite u reg arg inp)⟩⟩
  · obtain h | h | h | ⟨_, _, hform⟩ := (decodeReadLine_eq_iff.1 (rfl : decodeReadLine u inp = _)).error_or_verdict
    · simp [h, resultOf]
    · simp [h, resultOf]
    · simp [h, resultOf]
    · generalize decodeReadLine u inp = x at hform
      cases hform with
      | two pv sp => exact .inl ⟨pv, sp, rfl⟩
      | one pv => exact .inr (.inl ⟨pv, rfl⟩)
  · rw [resultOf_eq_err, decodeReadLine_eq_iff, lineOutcome_timeout_iff readForm_not_error]
  · obtain h | h | h | ⟨_, _, hform⟩ :=
      (decodeWriteLine_eq_iff.1 (rfl : decodeWriteLine u reg arg inp = _)).error_or_verdict
    · simp [h, resultOf]
    · simp [h, resultOf]
    · simp [h, resultOf]
    · generalize decodeWriteLine u reg arg inp = x at hform
      cases hform with
      | echo => exact .inl rfl
      | other _ => exact .inr (.inr (.inr (.inr rfl)))
  · rw [resultOf_eq_err, decodeWriteLine_eq_iff, lineOutcome_timeout_iff fun _ _ => nofun]

end Sys2Proof.Machine
end

section
/-!
The laws of the decoders: case (R162), noise (R163), extra bytes (R165), a changed checksum digit (R187), and the round
trips (R185, R186).
-/
namespace Sys2Proof.Machine

/-! Laws of the decoder (R162, R163, R165, R187), for any marker and forms. -/

section
variable {m inp : List Byte} {form : List Byte → Byte → Except Status Payload → Prop} {x : Except Status Payload}

/-- R162: only the folded line is looked at. -/
theorem LineOutcome.of_fold_eq {inp' : List Byte} (hfold : fold inp = fold inp') (h : LineOutcome m form inp x) :
    LineOutcome m form inp' x := by
  have hlast : inp.getLast? = some 0x0A ↔ inp'.getLast? = some 0x0A := by
    rw [← getLast_fold inp, hfold, getLast_fold]
  cases h with
  | timeout hlf => exact .timeout (mt hlast.2 hlf)
  | malformed hlf habsent => exact .malformed (hlast.1 hlf) (hfold ▸ habsent)
  | mismatch hform hheld hne => exact .mismatch hform (hfold ▸ hheld) hne
  | verdict hform hheld => exact .verdict hform (hfold ▸ hheld)

/-- R163: bytes in front of the marker are not looked at. -/
theorem LineOutcome.append_left {noise : List Byte} (hm : m.length = 4) (hne : inp ≠ [])
    (hnoise : ∀ i < noise.length, ¬ MarkerAt m (fold (noise ++ inp)) i) (h : LineOutcome m form inp x) :
    LineOutcome m form (noise ++ inp) x := by
  have hlast : (noise ++ inp).getLast? = inp.getLast? := List.getLast?_append_of_ne_nil noise hne
  have hheld {data cc} : HoldsReply m (fold (noise ++ inp)) data cc ↔ HoldsReply m (fold inp) data cc := by
    rw [fold_append] at hnoise ⊢
    exact holdsReply_append_left hm (by simpa using hnoise)
  cases h with
  | timeout hlf => exact .timeout (hlast ▸ hlf)
  | malformed hlf habsent => exact .malformed (hlast ▸ hlf) fun hform => mt hheld.1 (habsent hform)
  | mismatch hform h hne => exact .mismatch hform (hheld.2 h) hne
  | verdict hform h => exact .verdict hform (hheld.2 h)

/-- R163: a terminated line without the marker is malformed. -/
theorem LineOutcome.of_no_marker (hm : m.length = 4) (hlf : inp.getLast? = some 0x0A)
    (hnone : ∀ i, ¬ MarkerAt m (fold inp) i) : LineOutcome m form inp (.error .malformedReply) := by
  refine .malformed hlf fun _ hheld => ?_
  obtain ⟨i, hi⟩ := hheld.markerAt hm
  exact hnone i hi

/-- R187: an accepted reply with one digit of its checksum field replaced by a digit of another value. -/
theorem LineOutcome.tampered {p : Payload} {k : Nat} {c : Byte} (hm : m.length = 4) (h : LineOutcome m form inp (.ok p))
    (hk : k + 4 = inp.length ∨ k + 3 = inp.length) (hc : digitval c ≠ none)
    (hne : digitval c ≠ (inp[k]?).bind digitval) : LineOutcome m form (inp.set k c) (.error .checksumMismatch) := by
  cases h with
  | @verdict data sum _ hform hheld =>
    obtain ⟨before, hline, hfirst⟩ := (holdsReply_iff hm).1 hheld
    obtain ⟨cc, hcc, hset⟩ := fold_set_checksum (front := before ++ m ++ data) (by simpa using hline) hk hc hne
    exact .mismatch hform ((holdsReply_iff hm).2 ⟨before, by simpa using hset, hfirst⟩) hcc

/-- R165: of the texts of replies, none goes on where another ends. -/
def PrefixFree (form : List Byte → Byte → Except Status Payload → Prop) : Prop :=
  ∀ {data sum x data' sum' x' s t}, form data sum x → form data' sum' x' → data ++ s = data' ++ t →
    data.length = data'.length

/-- R161, R165: an accepted reply with more bytes after it. -/
theorem LineOutcome.append_right {p : Payload} {more : List Byte} (hm : m.length = 4) (hfree : PrefixFree form)
    (h : LineOutcome m form inp (.ok p)) (hmore : more ≠ []) :
    LineOutcome m form (inp ++ more) (.error (if more.getLast? = some 0x0A then .malformedReply else .timeout)) := by
  have hlast : (inp ++ more).getLast? = more.getLast? := List.getLast?_append_of_ne_nil inp hmore
  split
  · next hlf =>
    refine .malformed (hlast.trans hlf) fun hform' hheld' => hmore ?_
    cases h with
    | verdict hform hheld =>
      obtain ⟨before, hline, hfirst⟩ := (holdsReply_iff hm).1 hheld
      obtain ⟨before', hline', hfirst'⟩ := (holdsReply_iff hm).1 hheld'
      rw [fold_append, hline, List.append_assoc] at hline'
      obtain ⟨-, hreply⟩ := hfirst.unique hm hfirst' hline'
      have hdata := hfree hform hform' (by simpa using hreply)
      have hlen := congrArg List.length hreply
      simp only [List.length_append, hdata, hex2_length, fold_length] at hlen
      exact List.length_eq_zero_iff.1 (by omega)
  · next hlf => exact .timeout (hlast ▸ hlf)

end

/-- R170: the byte count fixes the length of what follows. -/
theorem readForm_prefixFree (unit : Byte) : PrefixFree (ReadForm unit) := by
  rintro _ _ _ _ _ _ s t (_ | _) (_ | _) h
  · rfl
  · simp [hex2_append_inj] at h
  · simp [hex2_append_inj] at h
  · rfl

/-- R180: write replies have one length. -/
theorem writeForm_prefixFree (unit : Byte) (reg arg : Word) : PrefixFree (WriteForm unit reg arg) := by
  intro _ _ _ _ _ _ _ _ hform hform' _
  obtain ⟨_, _, rfl, -⟩ := hform.exists_words
  obtain ⟨_, _, rfl, -⟩ := hform'.exists_words
  rfl

/-- Settles O44: `LineOutcome.tampered`, for each decoder. -/
theorem tamperedChecksumDetected : Obligations.TamperedChecksumDetected := by
  unfold Obligations.TamperedChecksumDetected
  refine ⟨fun s u inp p k c h hk hc hne => ?_, fun s u reg arg inp p k c h hk hc hne => ?_⟩
  · exact exec_decodeRead_iff.2 (.tampered rfl ((exec_decodeRead_iff (x := .ok p)).1 h) hk hc hne)
  · exact exec_decodeWrite_iff.2 (.tampered rfl ((exec_decodeWrite_iff (x := .ok p)).1 h) hk hc hne)

/-- Settles O45: `LineOutcome.of_fold_eq`, for each decoder. -/
theorem decodingIgnoresCase : Obligations.DecodingIgnoresCase := by
  unfold Obligations.DecodingIgnoresCase
  refine fun s inp inp' hfold => ⟨fun u => exec_congr ?_ s, fun u reg arg => exec_congr ?_ s⟩
  · exact decodeReadLine_eq_iff.2 (.of_fold_eq hfold.symm (decodeReadLine_eq_iff.1 rfl))
  · exact decodeWriteLine_eq_iff.2 (.of_fold_eq hfold.symm (decodeWriteLine_eq_iff.1 rfl))

/-- Settles O46: `LineOutcome.append_left`, for each decoder. -/
theorem leadingNoiseSkipped : Obligations.LeadingNoiseSkipped := by
  unfold Obligations.LeadingNoiseSkipped
  refine ⟨fun s u noise inp hne hnoise => exec_congr ?_ s, fun s u reg arg noise inp hne hnoise => exec_congr ?_ s⟩
  · exact decodeReadLine_eq_iff.2 (.append_left rfl hne hnoise (decodeReadLine_eq_iff.1 rfl))
  · exact decodeWriteLine_eq_iff.2 (.append_left rfl hne hnoise (decodeWriteLine_eq_iff.1 rfl))

/-- Settles O47: `LineOutcome.of_no_marker`, for each decoder. -/
theorem missingMarkerMalformed : Obligations.MissingMarkerMalformed := by
  unfold Obligations.MissingMarkerMalformed
  exact ⟨fun s u inp hlf hnone => exec_decodeRead_iff.2 (.of_no_marker rfl hlf hnone),
    fun s u reg arg inp hlf hnone => exec_decodeWrite_iff.2 (.of_no_marker rfl hlf hnone)⟩

/-- Settles O48: `LineOutcome.append_right`, for each decoder. -/
theorem trailingBytesRejected : Obligations.TrailingBytesRejected := by
  unfold Obligations.TrailingBytesRejected
  refine ⟨fun s u inp p more h hmore => ?_, fun s u reg arg inp p more h hmore => ?_⟩
  · exact exec_decodeRead_iff.2
      (.append_right rfl (readForm_prefixFree u) ((exec_decodeRead_iff (x := .ok p)).1 h) hmore)
  · exact exec_decodeWrite_iff.2
      (.append_right rfl (writeForm_prefixFree u reg arg) ((exec_decodeWrite_iff (x := .ok p)).1 h) hmore)

/-! Round trips (R185, R186). -/

/-- R60: the wire alphabet is in uppercase already. -/
theorem fold_eq_self {s : List Byte} (h : s ⊆ wireAlphabet) : fold s = s := by
  have hfold : ∀ c ∈ wireAlphabet, foldByte c = c := by decide
  exact (List.map_congr_left fun c hc => hfold c (h hc)).trans (List.map_id s)

/-- R62, R163: the colon is no digit of a unit, so the marker of a reply after it is the leftmost. -/
theorem leftmostReply_colon (unit : Byte) (fc : List Byte) {reply : List Byte} (h : reply ⊆ wireAlphabet) :
    LeftmostReply (hex2 unit ++ fc) (fold ([0x3A] ++ reply)) [0x3A] reply := by
  have hdigit : ∀ v : BitVec 4, 0x3A ≠ hexdigit v := by decide
  have hcolon : [0x3A] ⊆ wireAlphabet := by decide
  refine ⟨fold_eq_self (List.append_subset.2 ⟨hcolon, h⟩), fun i hi hat => ?_⟩
  obtain rfl := Nat.lt_one_iff.1 hi
  obtain ⟨hm, -⟩ := hat
  exact hdigit _ (List.cons.inj hm).1

theorem writeReply_subset_wireAlphabet (unit : Byte) (r v : Word) (cc : Byte) :
    writeReply unit r v cc ⊆ wireAlphabet := by
  have marks : [0x30, 0x36] ⊆ wireAlphabet ∧ [0x0D, 0x0A] ⊆ wireAlphabet := by decide
  simp only [writeReply, List.append_subset, hex2_subset_wireAlphabet, hex4_subset_wireAlphabet, marks, and_self]

theorem readReply4_subset_wireAlphabet (unit : Byte) (pv sp : Word) (cc : Byte) :
    readReply4 unit pv sp cc ⊆ wireAlphabet := by
  have marks : [0x30, 0x33] ⊆ wireAlphabet ∧ [0x30, 0x34] ⊆ wireAlphabet ∧ [0x0D, 0x0A] ⊆ wireAlphabet := by decide
  simp only [readReply4, List.append_subset, hex2_subset_wireAlphabet, hex4_subset_wireAlphabet, marks, and_self]

theorem readReply2_subset_wireAlphabet (unit : Byte) (pv : Word) (cc : Byte) :
    readReply2 unit pv cc ⊆ wireAlphabet := by
  have marks : [0x30, 0x33] ⊆ wireAlphabet ∧ [0x30, 0x32] ⊆ wireAlphabet ∧ [0x0D, 0x0A] ⊆ wireAlphabet := by decide
  simp only [readReply2, List.append_subset, hex2_subset_wireAlphabet, hex4_subset_wireAlphabet, marks, and_self]

/-- Settles O42: after its colon, the frame is the reply that DECODE_WRITE acknowledges. -/
theorem writeRoundTrip : Obligations.WriteRoundTrip := by
  unfold Obligations.WriteRoundTrip
  obtain ⟨-, hencode⟩ := encodeWriteResult
  refine fun u reg arg => ⟨_, rfl, hencode u reg arg, fun s => ?_⟩
  obtain ⟨hack, -⟩ := writeOutcomesExactly s u reg arg _
  exact hack.2 ⟨[0x3A], leftmostReply_colon u [0x30, 0x36] (writeReply_subset_wireAlphabet u reg arg _)⟩

/-- Settles O43: after its colon, the line is the reply that DECODE_READ accepts with these values. -/
theorem readRoundTrip : Obligations.ReadRoundTrip := by
  unfold Obligations.ReadRoundTrip
  refine fun s u pv sp => ⟨(readAcceptsExactlyTwoRegisterReplies s u _ pv sp).2 ⟨[0x3A], ?_⟩,
    (readAcceptsExactlyOneRegisterReplies s u _ pv).2 ⟨[0x3A], ?_⟩⟩
  · exact leftmostReply_colon u [0x30, 0x33] (readReply4_subset_wireAlphabet u pv sp _)
  · exact leftmostReply_colon u [0x30, 0x33] (readReply2_subset_wireAlphabet u pv _)

end Sys2Proof.Machine
end

section
/-!
Readings (R169, R171): the exact quotient of each byte count, its range, and the binary64 number nearest to it.
-/
namespace Sys2Proof.Machine

@[simp] theorem scale_one (raw : Word) : scale raw .one = raw.toNat := by
  simp [scale, divisorNat]

@[simp] theorem scale_ten (raw : Word) : scale raw .ten = raw.toNat / 10 := by
  simp [scale, divisorNat]

/-- R9: a raw value as a rational. -/
theorem toNat_cast_le (raw : Word) : (raw.toNat : Rat) ≤ 65535 := by
  exact_mod_cast Nat.le_of_lt_succ raw.isLt

/-- Settles O50: the divisor of each byte count, and the range of a word divided by it. -/
theorem readingsOfMeasurements : Obligations.ReadingsOfMeasurements := by
  unfold Obligations.ReadingsOfMeasurements
  refine ⟨fun pv sp => by simp [readings], fun pv => by simp [readings], fun raw => ?_⟩
  have hmax := toNat_cast_le raw
  have hmin : (0 : Rat) ≤ raw.toNat := Nat.cast_nonneg _
  simp only [scale_one, scale_ten]
  exact ⟨by positivity, by linarith, hmin, hmax⟩

/-- Settles O51: the fields of the bits are the logarithm, with its bias, and the significand, which is the quotient in
that unit rounded half to even. -/
theorem binaryReadingIsNearest : Obligations.BinaryReadingIsNearest := by
  unfold Obligations.BinaryReadingIsNearest
  intro raw d hraw
  obtain ⟨hlog, -, -⟩ := ratioLog_bounds hraw d
  obtain ⟨hmlo, hmhi⟩ := ratioSignificand_bounds hraw d
  obtain ⟨hd, -⟩ := divisorNat_bounds d
  have hround := roundHalfEven_bounds (raw.toNat * 2 ^ (56 - ratioLog raw.toNat (divisorNat d))) (divisorNat d) hd
  have hunit : 1075 - (1019 + ratioLog raw.toNat (divisorNat d)) = 56 - ratioLog raw.toNat (divisorNat d) := by omega
  refine ⟨_, _, by omega, by omega, hmlo, hmhi, scaleF64_toNat hraw d, ?_⟩
  rw [hunit, Nat.mul_assoc 2 raw.toNat]
  exact hround

end Sys2Proof.Machine
end

section
/-!
Outcomes that never occur (R200, R201, I6): the reserved status codes and kinds of the view, and an error of the five
commands that accept every operand.
-/
namespace Sys2Proof.Machine

/-- R200: the status codes end at 5. -/
theorem statusOfCode_of_reserved {c : Nat} (h : 6 ≤ c) : statusOfCode c = none := by
  unfold statusOfCode
  split
  case h_6 => rfl
  all_goals omega

/-- R26: the kinds end at 5. -/
theorem decodePayload_of_reserved {rd : ResReg → Option Word} {k : Word} (hkind : rd .kind = some k) (hk : 6 ≤ k.toNat) :
    decodePayload rd = none := by
  unfold decodePayload
  rw [hkind]
  split
  case h_7 => rfl
  all_goals
    next h =>
      cases h
      contradiction

/-- R26: with RES_VALID 1, a status other than 0 is read as an error's code. -/
theorem decodeRegs_of_status_ne_zero {rd : ResReg → Option Word} {c : Word} (hvalid : rd .valid = some 1)
    (hstatus : rd .status = some c) (hc : c ≠ 0) : decodeRegs rd = (statusOfCode c.toNat).map .err := by
  simp only [decodeRegs, hvalid, hstatus, BitVec.ofNat_eq_ofNat]
  split
  · next h => exact absurd (Option.some.inj h) hc
  · next h => rw [Option.some.inj h]
  · contradiction

/-- Settles O11: no status has a code of 6 or more, and no payload a kind of 6 or more. -/
theorem registerViewReservedRefused : Obligations.RegisterViewReservedRefused := by
  unfold Obligations.RegisterViewReservedRefused
  refine ⟨fun rd c hvalid hstatus hc => ?_, fun rd k hvalid hstatus hkind hk => ?_⟩
  · have hne : c ≠ 0 := by
      rintro rfl
      contradiction
    rw [decodeRegs_of_status_ne_zero hvalid hstatus hne, statusOfCode_of_reserved hc, Option.map_none]
  · simp [decodeRegs, hvalid, hstatus, decodePayload_of_reserved hkind hk]

/-- R27: a command that reports a payload answers with it in the latch, and changes nothing else. -/
theorem exec_of_reportOf_ok {i : Instr} {p : Payload} (h : reportOf i = .ok p) (s : State) :
    exec i s = .next (setResult (.ok p) s) := by
  rw [exec_eq_setResult_report, h, resultOf]

/-- Settles O20: the report of each of the five is a payload, whatever its operands. -/
theorem fiveCommandsCannotFail : Obligations.FiveCommandsCannotFail := by
  unfold Obligations.FiveCommandsCannotFail
  refine fun s => ⟨fun u r a => ?_, fun u r a => ?_, fun b => ?_, fun w => ?_, fun inp => ?_⟩
  · exact ⟨_, exec_encodeRead u r a s⟩
  · exact ⟨_, exec_encodeWrite u r a s⟩
  · exact ⟨.text (hex2 b), exec_of_reportOf_ok rfl s⟩
  · exact ⟨.text (hex4 w), exec_of_reportOf_ok rfl s⟩
  · exact ⟨.byte (lrc inp), exec_of_reportOf_ok rfl s⟩

end Sys2Proof.Machine
end

section
/-!
A reply decoded without its terminator (R242), and reset between the host's moves (R230).
-/
namespace Sys2Proof.Machine

/-! A line without its CR LF, or without its CR (R242), for any marker and forms. -/

theorem hexdigit_ne_CR : ∀ v : BitVec 4, hexdigit v ≠ 0x0D := by decide

theorem hexdigit_ne_LF : ∀ v : BitVec 4, hexdigit v ≠ 0x0A := by decide

/-- R165: a line that holds a reply ends in a digit of its checksum field, CR and LF. -/
theorem HoldsReply.eq_append_digit_crlf {m u data : List Byte} {cc : Byte} (h : HoldsReply m u data cc) :
    ∃ front v, u = front ++ [hexdigit v, 0x0D, 0x0A] := by
  obtain ⟨before, rfl, -⟩ := h
  exact ⟨before ++ m ++ data ++ [hexdigit (cc.extractLsb' 4 4)], cc.extractLsb' 0 4, by simp [hex2]⟩

section
variable {m inp : List Byte} {form : List Byte → Byte → Except Status Payload → Prop} {p : Payload}

/-- R165: so does an accepted line, in uppercase. -/
theorem LineOutcome.eq_append_digit_crlf (h : LineOutcome m form inp (.ok p)) :
    ∃ front v, fold inp = front ++ [hexdigit v, 0x0D, 0x0A] := by
  cases h with
  | verdict _ hheld => exact hheld.eq_append_digit_crlf

/-- R161, R242: without its CR LF, an accepted line ends in a hex digit. -/
theorem LineOutcome.without_terminator (h : LineOutcome m form inp (.ok p)) :
    LineOutcome m form (inp.take (inp.length - 2)) (.error .timeout) := by
  obtain ⟨front, v, hline⟩ := h.eq_append_digit_crlf
  have hcut : fold (inp.take (inp.length - 2)) = front ++ [hexdigit v] := by
    rw [fold_take, ← fold_length inp, hline]
    simp [List.take_append]
  refine .timeout fun hlf => hexdigit_ne_LF v ?_
  simpa [hcut] using (getLast_fold _).2 hlf

/-- R165, R242: without its CR, an accepted line ends in a hex digit and LF, where a reply has CR LF. -/
theorem LineOutcome.without_cr (h : LineOutcome m form inp (.ok p)) :
    LineOutcome m form (inp.eraseIdx (inp.length - 2)) (.error .malformedReply) := by
  obtain ⟨front, v, hline⟩ := h.eq_append_digit_crlf
  have hcut : fold (inp.eraseIdx (inp.length - 2)) = front ++ [hexdigit v, 0x0A] := by
    rw [fold, ← List.eraseIdx_map, ← fold, ← fold_length inp, hline]
    simp [List.eraseIdx_append]
  refine .malformed ((getLast_fold _).1 (by simp [hcut])) fun _ hheld => ?_
  obtain ⟨front', v', hline'⟩ := hheld.eq_append_digit_crlf
  have hends : (front ++ [hexdigit v]) ++ [0x0A] = (front' ++ [hexdigit v', 0x0D]) ++ [0x0A] := by
    simpa using hcut.symm.trans hline'
  exact hexdigit_ne_CR v (by simpa using congrArg List.getLast? (List.append_cancel_right hends))

end

/-- Settles O49: `LineOutcome.without_terminator` and `LineOutcome.without_cr`, for each decoder. -/
theorem strippedTerminatorRejected : Obligations.StrippedTerminatorRejected := by
  unfold Obligations.StrippedTerminatorRejected
  refine ⟨fun s u inp p h => ?_, fun s u reg arg inp p h => ?_⟩
  · have hok := (exec_decodeRead_iff (x := .ok p)).1 h
    exact ⟨exec_decodeRead_iff.2 hok.without_terminator, exec_decodeRead_iff.2 hok.without_cr⟩
  · have hok := (exec_decodeWrite_iff (x := .ok p)).1 h
    exact ⟨exec_decodeWrite_iff.2 hok.without_terminator, exec_decodeWrite_iff.2 hok.without_cr⟩

/-! Reset (R230). -/

theorem step_of_reset {s : State} {rest : List HostMove} (h : s.moves = .reset :: rest) :
    step s = .next (setResult .empty (s.withMoves rest)) :=
  (step_of_move h).trans (applyReset_eq _)

/-- R26, R230: the view of Empty has a value in RES_VALID only. -/
theorem readReg_empty_of_ne_valid {r : ResReg} (h : r ≠ .valid) : readReg .empty r = none := by
  cases r with
  | valid => contradiction
  | _ => rfl

/-- Settles O1: a reset is `step_of_reset`, whatever latch stands before it, and an issue leaves the moves after it. -/
theorem resetInputEmptiesLatch : Obligations.ResetInputEmptiesLatch := by
  unfold Obligations.ResetInputEmptiesLatch
  refine ⟨fun s rest hm => step_of_reset hm, fun s p rest t hm ht => ?_, fun s p rest t hm ht => ?_, reset_result, rfl,
    fun r => readReg_empty_of_ne_valid⟩
  · obtain rfl := Host.Outcome.next.inj ((step_of_reset hm).symm.trans ht)
    exact step_of_issue rfl
  · obtain ⟨-, r, -, rfl⟩ := issue_next ((step_of_issue hm).symm.trans ht)
    exact step_of_reset rfl

end Sys2Proof.Machine
end

section
/-!
Waiting for the host's first move (R46, log entry 3).
-/
namespace Sys2Proof.Machine

/-- Settles O7: the law `step_of_no_move`, at every state. -/
theorem waitsForFirstMove : Obligations.WaitsForFirstMove := by
  unfold Obligations.WaitsForFirstMove
  intro s hm
  exact step_of_no_move hm

end Sys2Proof.Machine
end
